-- ==== Sys2Proof/Word.lean ====
section
/-! DEFINITION. The widths of the CHIP-8 core (spec 00_scope R5, R6). -/

namespace Sys2Proof

/-- A general register, a timer, a memory byte or the field `nn`: 8 bits (R6). -/
abbrev Byte := BitVec 8

/-- `PC`, `I`, a call stack entry or an instruction word: 16 bits (R6). -/
abbrev Word := BitVec 16

/-- The field `nnn`: 12 bits (R6, R61). -/
abbrev Addr12 := BitVec 12

/-- A four-bit field of an instruction, and a key code 0x0..0xF (R6, R8, R61). -/
abbrev Nibble := BitVec 4

/-- One row of the display: bit `63 - c` is column `c` (R28). -/
abbrev DisplayRow := BitVec 64

/-- The number of a general register, `0 <= k <= 15` (R20). -/
abbrev RegNo := Fin 16

end Sys2Proof
end

