-- ==== Sys2Proof/Syntax.lean ====
section
/-! DEFINITION. The 35 instructions of the opcode map (spec 30_encoding R65, spec/opcode_table.json), one
constructor a row. Operands are the fields of R61, in range by their type (R70). -/

namespace Sys2Proof

/-- The instruction set. `x`, `y` are register numbers, `nn` an 8-bit immediate, `nnn` a 12-bit address
and `n` a row count 0..15 (R61, R63). -/
inductive Instr where
  /-- `0000` HALT (R105). -/
  | halt
  /-- `00E0` CLS (R150). -/
  | cls
  /-- `00EE` RET (R101). -/
  | ret
  /-- `1nnn` JP nnn (R102). -/
  | jp (nnn : Addr12)
  /-- `2nnn` CALL nnn (R103). -/
  | call (nnn : Addr12)
  /-- `3xnn` SE Vx, nn (R110). -/
  | seImm (x : RegNo) (nn : Byte)
  /-- `4xnn` SNE Vx, nn (R111). -/
  | sneImm (x : RegNo) (nn : Byte)
  /-- `5xy0` SE Vx, Vy (R112). -/
  | seReg (x y : RegNo)
  /-- `6xnn` LD Vx, nn (R120). -/
  | ldImm (x : RegNo) (nn : Byte)
  /-- `7xnn` ADD Vx, nn (R121). -/
  | addImm (x : RegNo) (nn : Byte)
  /-- `8xy0` LD Vx, Vy (R122). -/
  | ldReg (x y : RegNo)
  /-- `8xy1` OR Vx, Vy (R123). -/
  | orReg (x y : RegNo)
  /-- `8xy2` AND Vx, Vy (R124). -/
  | andReg (x y : RegNo)
  /-- `8xy3` XOR Vx, Vy (R125). -/
  | xorReg (x y : RegNo)
  /-- `8xy4` ADD Vx, Vy (R126). -/
  | addReg (x y : RegNo)
  /-- `8xy5` SUB Vx, Vy (R127). -/
  | subReg (x y : RegNo)
  /-- `8xy6` SHR Vx, Vy (R128); `y` is encoded and not used. -/
  | shr (x y : RegNo)
  /-- `8xy7` SUBN Vx, Vy (R129). -/
  | subn (x y : RegNo)
  /-- `8xyE` SHL Vx, Vy (R130); `y` is encoded and not used. -/
  | shl (x y : RegNo)
  /-- `9xy0` SNE Vx, Vy (R113). -/
  | sneReg (x y : RegNo)
  /-- `Annn` LD I, nnn (R140). -/
  | ldI (nnn : Addr12)
  /-- `Bnnn` JP V0, nnn (R104). -/
  | jpV0 (nnn : Addr12)
  /-- `Cxnn` RND Vx, nn (R131). -/
  | rnd (x : RegNo) (nn : Byte)
  /-- `Dxyn` DRW Vx, Vy, n (R151). -/
  | drw (x y : RegNo) (n : Nibble)
  /-- `Ex9E` SKP Vx (R160). -/
  | skp (x : RegNo)
  /-- `ExA1` SKNP Vx (R161). -/
  | sknp (x : RegNo)
  /-- `Fx07` LD Vx, DT (R162). -/
  | ldVxDT (x : RegNo)
  /-- `Fx0A` LD Vx, K (R163). -/
  | ldVxK (x : RegNo)
  /-- `Fx15` LD DT, Vx (R164). -/
  | ldDTVx (x : RegNo)
  /-- `Fx18` LD ST, Vx (R165). -/
  | ldSTVx (x : RegNo)
  /-- `Fx1E` ADD I, Vx (R141). -/
  | addI (x : RegNo)
  /-- `Fx29` LD F, Vx (R142). -/
  | ldF (x : RegNo)
  /-- `Fx33` LD B, Vx (R143). -/
  | ldB (x : RegNo)
  /-- `Fx55` LD [I], Vx (R144). -/
  | storeRegs (x : RegNo)
  /-- `Fx65` LD Vx, [I] (R145). -/
  | loadRegs (x : RegNo)
  deriving DecidableEq, Repr

end Sys2Proof
end

