-- ==== Sys2Proof/Decode.lean ====
section
/-! DEFINITION. From bits to instructions and back (spec 30_encoding). The decoder reads nothing but the word
(R68, R70); the encoder is written from the formats of R62 and the opcode map of R65. -/

namespace Sys2Proof

/-- Why bytes are no instruction. -/
inductive Reject where
  /-- The word matches no pattern of the opcode map (R66); the STEP reports it with the word (R202). -/
  | unknownOpcode (w : Word)
  /-- Fewer than two bytes: an instruction is one 16-bit word (R60). -/
  | truncated
  deriving DecidableEq, Repr

/-! ## Fields (R61) -/

/-- `op = w[15:12]`, the first nibble. -/
def opField (w : Word) : Nibble := w.extractLsb' 12 4

/-- `x = w[11:8]`, a register number. -/
def xField (w : Word) : RegNo := (w.extractLsb' 8 4).toFin

/-- `y = w[7:4]`, a register number. -/
def yField (w : Word) : RegNo := (w.extractLsb' 4 4).toFin

/-- `n = w[3:0]`. -/
def nField (w : Word) : Nibble := w.extractLsb' 0 4

/-- `nn = w[7:0]`. -/
def nnField (w : Word) : Byte := w.extractLsb' 0 8

/-- `nnn = w[11:0]`. -/
def nnnField (w : Word) : Addr12 := w.extractLsb' 0 12

/-! ## Decoding (R64) -/

/-- High nibble 0: only the three words of format E; every other `0nnn` is unknown (R66). -/
def decodeE (w : Word) : Except Reject Instr :=
  if w = 0x0000 then .ok .halt
  else if w = 0x00E0 then .ok .cls
  else if w = 0x00EE then .ok .ret
  else .error (.unknownOpcode w)

/-- High nibble 8: the low nibble selects the operation (format XY). -/
def decodeAlu (w : Word) : Except Reject Instr :=
  match (nField w).toNat with
  | 0x0 => .ok (.ldReg (xField w) (yField w))
  | 0x1 => .ok (.orReg (xField w) (yField w))
  | 0x2 => .ok (.andReg (xField w) (yField w))
  | 0x3 => .ok (.xorReg (xField w) (yField w))
  | 0x4 => .ok (.addReg (xField w) (yField w))
  | 0x5 => .ok (.subReg (xField w) (yField w))
  | 0x6 => .ok (.shr (xField w) (yField w))
  | 0x7 => .ok (.subn (xField w) (yField w))
  | 0xE => .ok (.shl (xField w) (yField w))
  | _ => .error (.unknownOpcode w)

/-- High nibble E: the low byte selects the operation (format XS). -/
def decodeKey (w : Word) : Except Reject Instr :=
  match (nnField w).toNat with
  | 0x9E => .ok (.skp (xField w))
  | 0xA1 => .ok (.sknp (xField w))
  | _ => .error (.unknownOpcode w)

/-- High nibble F: the low byte selects the operation (format XS). -/
def decodeMisc (w : Word) : Except Reject Instr :=
  match (nnField w).toNat with
  | 0x07 => .ok (.ldVxDT (xField w))
  | 0x0A => .ok (.ldVxK (xField w))
  | 0x15 => .ok (.ldDTVx (xField w))
  | 0x18 => .ok (.ldSTVx (xField w))
  | 0x1E => .ok (.addI (xField w))
  | 0x29 => .ok (.ldF (xField w))
  | 0x33 => .ok (.ldB (xField w))
  | 0x55 => .ok (.storeRegs (xField w))
  | 0x65 => .ok (.loadRegs (xField w))
  | _ => .error (.unknownOpcode w)

/-- High nibbles 5 and 9: the low nibble must be 0 (R64, D12). -/
def decodeLowZero (w : Word) (i : Instr) : Except Reject Instr :=
  if nField w = 0 then .ok i else .error (.unknownOpcode w)

/-- `decode(w)` of R64: a total function from the 65536 words to the 35 instructions plus UNKNOWN. -/
def decodeWord (w : Word) : Except Reject Instr :=
  match (opField w).toNat with
  | 0x0 => decodeE w
  | 0x1 => .ok (.jp (nnnField w))
  | 0x2 => .ok (.call (nnnField w))
  | 0x3 => .ok (.seImm (xField w) (nnField w))
  | 0x4 => .ok (.sneImm (xField w) (nnField w))
  | 0x5 => decodeLowZero w (.seReg (xField w) (yField w))
  | 0x6 => .ok (.ldImm (xField w) (nnField w))
  | 0x7 => .ok (.addImm (xField w) (nnField w))
  | 0x8 => decodeAlu w
  | 0x9 => decodeLowZero w (.sneReg (xField w) (yField w))
  | 0xA => .ok (.ldI (nnnField w))
  | 0xB => .ok (.jpV0 (nnnField w))
  | 0xC => .ok (.rnd (xField w) (nnField w))
  | 0xD => .ok (.drw (xField w) (yField w) (nField w))
  | 0xE => decodeKey w
  | 0xF => decodeMisc w
  | _ => .error (.unknownOpcode w)

/-- The word of two bytes, the byte at the lower address in bits 15:8 (R44). -/
def wordOfBytes (hi lo : Byte) : Word := hi ++ lo

/-- `w[15:8]`, the byte an instruction word has at its lower address (R44, R60). -/
def highByte (w : Word) : Byte := w.extractLsb' 8 8

/-- `w[7:0]`, the byte at the higher address. -/
def lowByte (w : Word) : Byte := w.extractLsb' 0 8

/-- Decoding of a byte string: the instruction of its first two bytes (R60) and the bytes after them. -/
def decode : List Byte → Except Reject (Instr × List Byte)
  | hi :: lo :: rest =>
    match decodeWord (wordOfBytes hi lo) with
    | .ok i => .ok (i, rest)
    | .error r => .error r
  | [_] => .error .truncated
  | [] => .error .truncated

/-- What the decoder reads from a word numbered as spec/opcode_table.json numbers it: bit 0 is the least
significant bit of the one 16-bit word, laid out big-endian (R44). -/
def decodeTableWord (nbits w : Nat) : Option Instr :=
  let word : Word := BitVec.ofNat 16 (w % 2 ^ nbits)
  match decode [highByte word, lowByte word] with
  | .ok (i, _) => some i
  | .error _ => none

/-! ## Encoding (R62, R65) -/

/-- Format A: `op`, `nnn`. -/
def packA (op : Nibble) (nnn : Addr12) : Word := op ++ nnn

/-- Format XB: `op`, `x`, `nn`. -/
def packXB (op : Nibble) (x : RegNo) (nn : Byte) : Word := op ++ (BitVec.ofFin x : Nibble) ++ nn

/-- Formats XY and XYN: `op`, `x`, `y` and the low nibble (`sub4` or `n`). -/
def packXY (op : Nibble) (x y : RegNo) (low : Nibble) : Word :=
  op ++ (BitVec.ofFin x : Nibble) ++ (BitVec.ofFin y : Nibble) ++ low

/-- The word of an instruction, from its row of the opcode map (R65). Format XS is format XB with the
function code `sub8` in the place of `nn`. -/
def encode : Instr → Word
  | .halt => 0x0000
  | .cls => 0x00E0
  | .ret => 0x00EE
  | .jp nnn => packA 0x1 nnn
  | .call nnn => packA 0x2 nnn
  | .seImm x nn => packXB 0x3 x nn
  | .sneImm x nn => packXB 0x4 x nn
  | .seReg x y => packXY 0x5 x y 0x0
  | .ldImm x nn => packXB 0x6 x nn
  | .addImm x nn => packXB 0x7 x nn
  | .ldReg x y => packXY 0x8 x y 0x0
  | .orReg x y => packXY 0x8 x y 0x1
  | .andReg x y => packXY 0x8 x y 0x2
  | .xorReg x y => packXY 0x8 x y 0x3
  | .addReg x y => packXY 0x8 x y 0x4
  | .subReg x y => packXY 0x8 x y 0x5
  | .shr x y => packXY 0x8 x y 0x6
  | .subn x y => packXY 0x8 x y 0x7
  | .shl x y => packXY 0x8 x y 0xE
  | .sneReg x y => packXY 0x9 x y 0x0
  | .ldI nnn => packA 0xA nnn
  | .jpV0 nnn => packA 0xB nnn
  | .rnd x nn => packXB 0xC x nn
  | .drw x y n => packXY 0xD x y n
  | .skp x => packXB 0xE x 0x9E
  | .sknp x => packXB 0xE x 0xA1
  | .ldVxDT x => packXB 0xF x 0x07
  | .ldVxK x => packXB 0xF x 0x0A
  | .ldDTVx x => packXB 0xF x 0x15
  | .ldSTVx x => packXB 0xF x 0x18
  | .addI x => packXB 0xF x 0x1E
  | .ldF x => packXB 0xF x 0x29
  | .ldB x => packXB 0xF x 0x33
  | .storeRegs x => packXB 0xF x 0x55
  | .loadRegs x => packXB 0xF x 0x65

/-- The two bytes of an instruction in memory order (R44, R60). -/
def encodeBytes (i : Instr) : List Byte := [highByte (encode i), lowByte (encode i)]

/-! ## The opcode map as a table (R65) -/

/-- One row of the opcode map: a word `w` is this instruction iff `w AND mask = pattern`. -/
structure OpcodeRow where
  mask : Word
  pattern : Word
  deriving DecidableEq, Repr

/-- The row of each instruction (R65). -/
def Instr.row : Instr → OpcodeRow
  | .halt => ⟨0xFFFF, 0x0000⟩
  | .cls => ⟨0xFFFF, 0x00E0⟩
  | .ret => ⟨0xFFFF, 0x00EE⟩
  | .jp _ => ⟨0xF000, 0x1000⟩
  | .call _ => ⟨0xF000, 0x2000⟩
  | .seImm _ _ => ⟨0xF000, 0x3000⟩
  | .sneImm _ _ => ⟨0xF000, 0x4000⟩
  | .seReg _ _ => ⟨0xF00F, 0x5000⟩
  | .ldImm _ _ => ⟨0xF000, 0x6000⟩
  | .addImm _ _ => ⟨0xF000, 0x7000⟩
  | .ldReg _ _ => ⟨0xF00F, 0x8000⟩
  | .orReg _ _ => ⟨0xF00F, 0x8001⟩
  | .andReg _ _ => ⟨0xF00F, 0x8002⟩
  | .xorReg _ _ => ⟨0xF00F, 0x8003⟩
  | .addReg _ _ => ⟨0xF00F, 0x8004⟩
  | .subReg _ _ => ⟨0xF00F, 0x8005⟩
  | .shr _ _ => ⟨0xF00F, 0x8006⟩
  | .subn _ _ => ⟨0xF00F, 0x8007⟩
  | .shl _ _ => ⟨0xF00F, 0x800E⟩
  | .sneReg _ _ => ⟨0xF00F, 0x9000⟩
  | .ldI _ => ⟨0xF000, 0xA000⟩
  | .jpV0 _ => ⟨0xF000, 0xB000⟩
  | .rnd _ _ => ⟨0xF000, 0xC000⟩
  | .drw _ _ _ => ⟨0xF000, 0xD000⟩
  | .skp _ => ⟨0xF0FF, 0xE09E⟩
  | .sknp _ => ⟨0xF0FF, 0xE0A1⟩
  | .ldVxDT _ => ⟨0xF0FF, 0xF007⟩
  | .ldVxK _ => ⟨0xF0FF, 0xF00A⟩
  | .ldDTVx _ => ⟨0xF0FF, 0xF015⟩
  | .ldSTVx _ => ⟨0xF0FF, 0xF018⟩
  | .addI _ => ⟨0xF0FF, 0xF01E⟩
  | .ldF _ => ⟨0xF0FF, 0xF029⟩
  | .ldB _ => ⟨0xF0FF, 0xF033⟩
  | .storeRegs _ => ⟨0xF0FF, 0xF055⟩
  | .loadRegs _ => ⟨0xF0FF, 0xF065⟩

/-- An instruction of each row of the source's table, in its order (R65): high nibbles 0 to 7. -/
def instrsLow : List Instr :=
  [.halt, .cls, .ret, .jp 0, .call 0, .seImm 0 0, .sneImm 0 0, .seReg 0 0, .ldImm 0 0, .addImm 0 0]

/-- High nibbles 8 to D. -/
def instrsMid : List Instr :=
  [.ldReg 0 0, .orReg 0 0, .andReg 0 0, .xorReg 0 0, .addReg 0 0, .subReg 0 0, .shr 0 0, .subn 0 0, .shl 0 0,
   .sneReg 0 0, .ldI 0, .jpV0 0, .rnd 0 0, .drw 0 0 0]

/-- High nibbles E and F. -/
def instrsHigh : List Instr :=
  [.skp 0, .sknp 0, .ldVxDT 0, .ldVxK 0, .ldDTVx 0, .ldSTVx 0, .addI 0, .ldF 0, .ldB 0, .storeRegs 0, .loadRegs 0]

/-- The 35 rows in the order of the source's table (R65). -/
def opcodeRows : List OpcodeRow := (instrsLow ++ instrsMid ++ instrsHigh).map Instr.row

/-- The word matches the row. -/
def OpcodeRow.isMatch (r : OpcodeRow) (w : Word) : Bool := decide (w &&& r.mask = r.pattern)

end Sys2Proof
end

