-- ==== Sys2Proof/Config.lean ====
section
/-! DEFINITION. What is fixed for one built machine, and the free values (spec 00_scope R4, R8). -/

namespace Sys2Proof

/-- The parameters of R4 that are OPEN and reach the CORE. They are fixed for the life of a model (R241);
the machine carries them in `State.params`, so that a statement about every state covers every
setting. Log entry 6. -/
structure Params where
  /-- `FX1E_SETS_VF`: whether `Fx1E` writes `VF` on overflow past 0xFFF (R141, D16). -/
  fx1eSetsVF : Bool
  deriving DecidableEq, Repr, Inhabited

namespace Config

/-- The chosen defaults of R4: `FX1E_SETS_VF = false` (D16). -/
def defaultParams : Params := { fx1eSetsVF := false }

/-- `PROGRAM_BASE` (R4): the reset value of `PC` and the conventional load address. -/
def programBase : Nat := 0x200

/-- `FONT_BASE` (R4): the address of the first glyph. -/
def fontBase : Nat := 0x050

/-- `FONT_SIZE` (R4): 16 glyphs of 5 bytes. -/
def fontSize : Nat := 80

/-- `MEM_SIZE` (R4). -/
def memSize : Nat := 4096

/-- The default value of `FONT_DATA` (R245), glyphs 0 to 7.
PRESUMED: the spec marks these bytes as general knowledge (G1). Log entry 20. -/
def fontLow : List Byte :=
  [0xF0, 0x90, 0x90, 0x90, 0xF0] ++ [0x20, 0x60, 0x20, 0x20, 0x70] ++
  [0xF0, 0x10, 0xF0, 0x80, 0xF0] ++ [0xF0, 0x10, 0xF0, 0x10, 0xF0] ++
  [0x90, 0x90, 0xF0, 0x10, 0x10] ++ [0xF0, 0x80, 0xF0, 0x10, 0xF0] ++
  [0xF0, 0x80, 0xF0, 0x90, 0xF0] ++ [0xF0, 0x10, 0x20, 0x40, 0x40]

/-- The default value of `FONT_DATA` (R245), glyphs 8 to F. PRESUMED, as `fontLow`. -/
def fontHigh : List Byte :=
  [0xF0, 0x90, 0xF0, 0x90, 0xF0] ++ [0xF0, 0x90, 0xF0, 0x10, 0xF0] ++
  [0xF0, 0x90, 0xF0, 0x90, 0x90] ++ [0xE0, 0x90, 0xE0, 0x90, 0xE0] ++
  [0xF0, 0x80, 0x80, 0x80, 0xF0] ++ [0xE0, 0x90, 0x90, 0x90, 0xE0] ++
  [0xF0, 0x80, 0xF0, 0x80, 0xF0] ++ [0xF0, 0x80, 0xF0, 0x80, 0x80]

/-- The default value of `FONT_DATA` (R245), 80 bytes. -/
def defaultFont : List Byte := fontLow ++ fontHigh

/-- Free value: the keys held down at the `n`-th STEP for which the environment has queued no event
(R8, U8: any value, under no law). Log entry 2. -/
opaque freeKeys : Nat → BitVec 16

/-- Free value: the key event of that STEP, if one has arrived (R8, U8). Log entry 2. -/
opaque freeKeyEvent : Nat → Option Nibble

/-- Free value: the random byte of that STEP (R8, R131, U8). Log entry 2. -/
opaque freeRand : Nat → Byte

end Config

end Sys2Proof
end

