-- ==== Sys2Proof/Machine/State.lean ====
section
/-! DEFINITION. The state of the CORE (spec 10_state), the events that act on it (00_scope R7), what an event
reports (R9, 60_exceptions R201), and the state after RESET (10_state R31, 70_reset R240). -/

namespace Sys2Proof.Machine

/-- Memory: the bytes that are not 0, as (address, byte) pairs with rising addresses below 4096 (`Memory.wf`
in Ops). An address not listed reads 0x00, the reset value of every byte (R29, R31). -/
abbrev Memory := List Host.Cell

/-- The display bitmap: 32 rows of 64 pixels; pixel (r, c) is bit `63 - c` of row `r` (R28). -/
abbrev Display := Vector DisplayRow 32

/-- The environment's answers sampled by one STEP (R8); under no law. -/
structure Inputs where
  /-- Bit `k` is 1 iff key `k` is down. -/
  keys : BitVec 16
  /-- The key press that has arrived, if one has, by its code 0x0..0xF. -/
  keyEvent : Option Nibble
  /-- The random byte. -/
  rand : Byte
  deriving DecidableEq, Repr

/-- The four events the environment may deliver (R7). -/
inductive Event where
  /-- RESET (R240). -/
  | reset
  /-- LOAD(bytes, at) (R243). -/
  | load (bytes : List Byte) (base : Nat)
  /-- STEP(in) (R100). -/
  | step (inputs : Inputs)
  /-- TICK (R214). -/
  | tick
  deriving DecidableEq, Repr

/-- The complete list of outcomes of an event (R201). -/
inductive EventOutcome where
  | ok
  | waitingForKey
  | unknownOpcode (w : Word)
  | halt
  | outOfBounds (addr : Nat)
  | stackOverflow
  | stackUnderflow
  | programTooLarge
  deriving DecidableEq, Repr

/-- What an event reports to the environment: its outcome and the three hint bits of R9. No rule reads it;
it is an output port of the CORE and not one of its registers (R30). Log entries 4, 5. -/
structure Report where
  outcome : EventOutcome
  /-- The instruction was 1nnn, 2nnn, Bnnn or 00EE and completed. -/
  pcJumped : Bool
  /-- `V[15]` after the STEP differs from its value before. -/
  flagChanged : Bool
  /-- Some `DISP[r]` after the STEP differs from its value before. -/
  displayMutated : Bool
  deriving DecidableEq, Repr

/-- The report of an event whose rule reports nothing: `Ok`, hint bits 0 (R200). -/
def Report.okay : Report := ⟨.ok, false, false, false⟩

/-- The whole state: the tuple of 10_state (R20 to R29), and after it the model's own fields. -/
structure State where
  /-- `V[0..15]` (R20); `VF` = `V[15]` is the flag register (R21). -/
  v : Vector Byte 16
  /-- `PC` (R22). -/
  pc : Word
  /-- `I` (R23). -/
  i : Word
  /-- `STACK[0..15]` (R24). -/
  stack : Vector Word 16
  /-- `SP`, a count 0..16 (R25, C1); 17 and more is not representable (U7). Log entry 9. -/
  sp : Fin 17
  /-- `DT` (R26). -/
  dt : Byte
  /-- `ST` (R27). -/
  st : Byte
  /-- `DISP[0..31]` (R28). -/
  disp : Display
  /-- `MEM[0..4095]` (R29). -/
  mem : Memory
  /-- Model's own: the OPEN parameters, fixed for the life of a model (R4, R241). Log entry 6. -/
  params : Params
  /-- Model's own: the events the environment has queued, oldest first (R7). Log entry 1. -/
  pending : List Event
  /-- Model's own: how many STEPs took free inputs (R8, U8). Log entry 2. -/
  draws : Nat
  /-- Model's own: the report of the last event (R9). Log entry 4. -/
  report : Report
  deriving DecidableEq, Repr

/-- The fatal error kinds (R201, R204 to R206, R209). An event that raises one changes nothing (R207), so
the state to look at is the one before the event; a model ends the run there (R212, U4), which is safe.
Log entry 3. -/
inductive Fault where
  /-- Raised by the fetch with `PC` > 4094, by Dxyn, Fx33, Fx55, Fx65 past address 4095, and by Ex9E, ExA1
  with a key number above 15; carries the address or key number (R204). Safe. -/
  | outOfBounds (addr : Nat)
  /-- Raised by 2nnn with 16 return addresses on the stack (R205). Safe. -/
  | stackOverflow
  /-- Raised by 00EE with an empty stack (R206). Safe. -/
  | stackUnderflow
  /-- Raised by a LOAD event that does not fit, never by an instruction (R209). Safe. -/
  | programTooLarge
  deriving DecidableEq, Repr

/-- Why the model has no answer. -/
inductive Refusal where
  /-- Raised by an arm of `exec` whose instruction has no meaning yet; no arm is left so. Safe. -/
  | notModelled (mnemonic : String)
  deriving DecidableEq, Repr

/-- What an event answers. -/
abbrev Result := Host.Outcome State Fault Refusal

/-- The state after RESET with the default parameters and no event queued (R31, R240). Every value of the
spec's own nine fields is the spec's (those of `I`, `SP`, `DT`, `ST`, `DISP` by its decision D23). -/
def State.reset : State where
  v := Vector.replicate 16 0x00
  pc := 0x0200
  i := 0x0000
  stack := Vector.replicate 16 0x0000
  sp := 0
  dt := 0x00
  st := 0x00
  disp := Vector.replicate 32 0
  mem := []
  params := Config.defaultParams
  pending := []
  draws := 0
  report := Report.okay

end Sys2Proof.Machine
end

