-- ==== Sys2Proof/Machine/Ops.lean ====
section
/-! DEFINITION. The shared operations: registers, memory, call stack, display, raising an error, reporting an
outcome, and the events other than STEP. -/

namespace Sys2Proof.Machine

/-! ## Registers (R20 to R23) -/

/-- `V[k]` (R6, R20). -/
def State.reg (s : State) (k : RegNo) : Byte := s.v.get k

/-- `V[k] <- b` (R6, R20). -/
def State.setReg (s : State) (k : RegNo) (b : Byte) : State := { s with v := s.v.set k.val b k.isLt }

/-- `VF`, the flag register (R21). -/
def vf : RegNo := 15

/-- `PC <- target` (R6, R22). -/
def State.setPc (s : State) (target : Word) : State := { s with pc := target }

/-- `PC <- trunc_16(PC + 2)`: the increment after fetch, and what a taken skip adds (R22, R100, D4). -/
def State.advance (s : State) : State := s.setPc (s.pc + 2)

/-- `I <- a` (R23). -/
def State.setI (s : State) (a : Word) : State := { s with i := a }

/-- `V0..V(n-1)` in ascending order, for `n <= 16`. -/
def State.firstRegs (s : State) (n : Nat) : List Byte := s.v.toList.take n

/-- Write the bytes to the registers from number `k` upward, one after the other. -/
def writeRegs (v : Vector Byte 16) (k : Nat) : List Byte → Vector Byte 16
  | [] => v
  | b :: bs => writeRegs (v.setIfInBounds k b) (k + 1) bs

/-! ## Ending an event (R200, R9) -/

/-- `raise`: the event ends with the error kind and no state changed (R200, R207). There is no trap entry:
nothing is saved, `PC` is not redirected, no mode changes (R212), so this is the whole of taking an
exception, and there is no return from one (R213). -/
def raise (f : Fault) : Result := .fault f

/-- Go on with the value, or raise the error. -/
def attempt {α : Type} (e : Except Fault α) (k : α → Result) : Result :=
  match e with
  | .ok a => k a
  | .error f => raise f

/-- `report`: the instruction that began in `s` completes in `t` with this outcome, and the hint bits
are as R9 defines them (D26). -/
def finish (outcome : EventOutcome) (jumped : Bool) (s t : State) : Result :=
  .next { t with report :=
    { outcome := outcome, pcJumped := jumped, flagChanged := decide (t.reg vf ≠ s.reg vf),
      displayMutated := decide (t.disp ≠ s.disp) } }

/-- The instruction completes with outcome `Ok`, no jump (R200). -/
def done (s t : State) : Result := finish .ok false s t

/-- A jump, call or return completes with outcome `Ok` (R9). -/
def jumped (s t : State) : Result := finish .ok true s t

/-- The outcome a fatal error is reported as (R201). -/
def Fault.outcome : Fault → EventOutcome
  | .outOfBounds a => .outOfBounds a
  | .stackOverflow => .stackOverflow
  | .stackUnderflow => .stackUnderflow
  | .programTooLarge => .programTooLarge

/-- The numeric codes of R201 (the spec's own, D9; nothing depends on them). -/
def EventOutcome.code : EventOutcome → Nat
  | .ok => 0
  | .waitingForKey => 1
  | .unknownOpcode _ => 2
  | .halt => 3
  | .outOfBounds _ => 4
  | .stackOverflow => 5
  | .stackUnderflow => 6
  | .programTooLarge => 7

/-! ## Memory (20_memory) -/

/-- `MEM[a]`, unchecked (R6): the listed byte, or 0x00 (R31). -/
def Memory.get (m : Memory) (a : Nat) : Byte :=
  match m with
  | [] => 0x00
  | (b, w) :: rest => if b = a then w else Memory.get rest a

/-- Put a pair before the first one with a larger address. -/
def Memory.insert (a : Nat) (w : Byte) (m : Memory) : Memory :=
  match m with
  | [] => [(a, w)]
  | (b, u) :: rest => if a < b then (a, w) :: (b, u) :: rest else (b, u) :: Memory.insert a w rest

/-- `MEM[a] <- w`, unchecked (R6): the old pair for `a` is dropped, and a byte that is not 0x00 is listed. -/
def Memory.set (m : Memory) (a : Nat) (w : Byte) : Memory :=
  let rest := m.filter fun c => c.1 != a
  if w = 0x00 then rest else Memory.insert a w rest

/-- The `n` bytes from `base` upward. -/
def Memory.getMany (m : Memory) (base : Nat) : Nat → List Byte
  | 0 => []
  | n + 1 => m.get base :: Memory.getMany m (base + 1) n

/-- Write the bytes from `base` upward, in ascending order. -/
def Memory.setMany (m : Memory) (base : Nat) : List Byte → Memory
  | [] => m
  | b :: bs => Memory.setMany (m.set base b) (base + 1) bs

/-- The canonical form: addresses strictly rising, all of them addresses of the 4096 bytes (R40), and
no pair that says what an unlisted address says. -/
def Memory.wf (m : Memory) : Bool :=
  decide (m.Pairwise fun c d => c.1 < d.1) && m.all fun c => decide (c.1 < 4096) && decide (c.2 ≠ 0x00)

/-- `MemRead(addr, 1)` (R41): never masked, never wrapped (R43). -/
def State.memRead (s : State) (addr : Nat) : Except Fault Byte :=
  if 4095 < addr then .error (.outOfBounds addr) else .ok (s.mem.get addr)

/-- `MemWrite(addr, 1, w)` (R42); every address 0..4095 is writable. -/
def State.memWrite (s : State) (addr : Nat) (w : Byte) : Except Fault State :=
  if 4095 < addr then .error (.outOfBounds addr) else .ok { s with mem := s.mem.set addr w }

/-- `MemRead(PC, 2)`: instruction fetch, big-endian, at any `PC`, odd ones included (R41, R44, R46). The
second address is `nat(PC + 1)`: 4096 after 4095, not 0 (R43). -/
def State.fetchWord (s : State) : Except Fault Word :=
  match s.memRead s.pc.toNat with
  | .error f => .error f
  | .ok hi =>
    match s.memRead (s.pc.toNat + 1) with
    | .error f => .error f
    | .ok lo => .ok (wordOfBytes hi lo)

/-- The one check of a multi-byte access of `n` bytes at `base`, made before anything moves: if the highest
address exceeds 4095, the lowest address out of range is reported (R143 to R145, R151, R204, R210). -/
def checkSpan (base n : Nat) : Except Fault Unit :=
  if 0 < n ∧ 4095 < base + n - 1 then .error (.outOfBounds (max base 4096)) else .ok ()

/-- Read `n` bytes from `base` upward, after the check (R207). -/
def State.loadSpan (s : State) (base n : Nat) : Except Fault (List Byte) :=
  match checkSpan base n with
  | .error f => .error f
  | .ok () => .ok (s.mem.getMany base n)

/-- Store the bytes from `base` upward, after the check: all of them or none (R207). -/
def State.storeSpan (s : State) (base : Nat) (bytes : List Byte) : Except Fault State :=
  match checkSpan base bytes.length with
  | .error f => .error f
  | .ok () => .ok { s with mem := s.mem.setMany base bytes }

/-! ## The call stack (R24, R25) -/

/-- `push(w)`: fails at 16; else `STACK[SP] <- w`, `SP <- SP + 1` (R24, D6). -/
def State.push (s : State) (w : Word) : Except Fault State :=
  if h : s.sp.val < 16 then
    .ok { s with stack := s.stack.set s.sp.val w h, sp := ⟨s.sp.val + 1, Nat.succ_lt_succ h⟩ }
  else .error .stackOverflow

/-- `pop()`: fails at 0; else `SP <- SP - 1` and the answer is `STACK[SP]`, which keeps its value (R24, D6). -/
def State.pop (s : State) : Except Fault (Word × State) :=
  if h : s.sp.val = 0 then .error .stackUnderflow
  else
    have below : s.sp.val - 1 < 16 := by have := s.sp.isLt; omega
    .ok (s.stack[s.sp.val - 1], { s with sp := ⟨s.sp.val - 1, Nat.lt_succ_of_lt below⟩ })

/-! ## The display (R28) -/

/-- `get_pixel(r, c) = DISP[r][63 - c]`; the coordinates are in range by type, as the opcodes only ever
use coordinates in range (R28, R204). Log entry 10. -/
def Display.pixel (d : Display) (r : Fin 32) (c : Fin 64) : Bool := (d.get r).getLsbD (63 - c.val)

/-- `set_pixel(r, c, on)`: the pixel's previous value and the display with it set (R28). -/
def Display.setPixel (d : Display) (r : Fin 32) (c : Fin 64) (on : Bool) : Bool × Display :=
  let bit : DisplayRow := 1#64 <<< (63 - c.val)
  (Display.pixel d r c,
   d.set r.val (if on then d.get r ||| bit else d.get r &&& ~~~bit) r.isLt)

/-- `clear_display()`: every row 0 (R28, R150). -/
def clearedDisplay : Display := Vector.replicate 32 0

/-! ## The events other than STEP -/

/-- A timer decremented by 1, floored at 0 (R214). -/
def countDown (t : Byte) : Byte := if t = 0 then 0 else t - 1

/-- TICK (R214): both timers, independently, and nothing else; outcome `Ok`. -/
def State.tick (s : State) : State :=
  { s with dt := countDown s.dt, st := countDown s.st, report := Report.okay }

/-- LOAD(bytes, at) (R243): one check, before any byte is written; it changes memory only. -/
def State.loadEvent (s : State) (bytes : List Byte) (base : Nat) : Result :=
  if 4096 < base + bytes.length then raise .programTooLarge
  else .next { s with mem := s.mem.setMany base bytes, report := Report.okay }

/-- RESET (R240): the reset state, whatever the state was. It does not touch the parameters (R241), nor
the model's schedule and its counter of free inputs (log entries 1, 2). -/
def State.resetEvent (s : State) : State :=
  { State.reset with params := s.params, pending := s.pending, draws := s.draws }

/-- The event that has just been taken leaves the schedule; a STEP for which none was queued has used one
set of free inputs (log entries 1, 2). -/
def State.afterEvent (s : State) : State :=
  match s.pending with
  | [] => { s with draws := s.draws + 1 }
  | _ :: rest => { s with pending := rest }

/-- Apply `afterEvent` to a next state. -/
def leaveEvent (r : Result) : Result :=
  match r with
  | .next t => .next t.afterEvent
  | .fault f => .fault f
  | .refused u => .refused u

/-- The state in which the environment finds the CORE after the next event raised `f`: as it was, the event
taken and the error reported (R200, R207, R208). Log entry 3. -/
def State.afterFault (s : State) (f : Fault) : State :=
  { s.afterEvent with report := { Report.okay with outcome := f.outcome } }

/-- The event is a STEP. -/
def Event.isStep : Event → Bool
  | .step _ => true
  | .reset => false
  | .load _ _ => false
  | .tick => false

/-- Put a word where the next STEP fetches it and see to it that the next event is a STEP: a `PC` from
which nothing can be fetched is moved to `PROGRAM_BASE`, and queued events other than STEP that
stand before the next STEP are dropped. Log entry 11. -/
def State.placeWord (s : State) (w : Word) : State :=
  let pc : Word := if s.pc.toNat ≤ 4094 then s.pc else 0x0200
  { s with
    pc := pc
    mem := (s.mem.set pc.toNat (highByte w)).set (pc.toNat + 1) (lowByte w)
    pending := s.pending.dropWhile fun e => !e.isStep }

end Sys2Proof.Machine
end

