-- ==== Sys2Proof/Machine/Flags.lean ====
section
/-! DEFINITION. The flag computations (spec 10_state R21). Each is a function of operand values read before any
write; the flag is the whole byte 0x00 or 0x01, written to `VF` last. -/

namespace Sys2Proof.Machine

/-- A flag as the byte `VF` gets: 0x01 or 0x00 (R21, R132 g). -/
def flagByte (b : Bool) : Byte := if b then 0x01 else 0x00

/-- Write the result to `Vx`, then the flag to `VF`, even when `Vx` is `VF` (R21). -/
def State.writeWithFlag (s : State) (x : RegNo) (result : Byte) (flag : Bool) : State :=
  (s.setReg x result).setReg vf (flagByte flag)

/-- Carry out of bit 7: the sum exceeds 255 (R126). -/
def carry (a b : Byte) : Bool := decide (255 < a.toNat + b.toNat)

/-- No borrow in `a - b`: `a >= b`, equality included (R127, R129). -/
def noBorrow (a b : Byte) : Bool := decide (b.toNat ≤ a.toNat)

/-- `a[0]`, the bit a right shift drops (R128). -/
def lowBit (a : Byte) : Bool := a.getLsbD 0

/-- `a[7]`, the bit a left shift drops (R130). -/
def highBit (a : Byte) : Bool := a.getLsbD 7

/-- The unreduced sum `I + Vx` exceeds 0xFFF (R141). -/
def indexOverflow (i : Word) (a : Byte) : Bool := decide (0x0FFF < i.toNat + a.toNat)

/-- An on-pixel is turned off when the row is XORed with the mask (R151). -/
def collides (row mask : DisplayRow) : Bool := decide (row &&& mask ≠ 0)

end Sys2Proof.Machine
end

