-- ==== Sys2Proof/Machine/Operands.lean ====
section
/-! DEFINITION. The operand forms (spec 30_encoding R63, 20_memory R43, 00_scope R8): immediates, the address in
`I`, the inputs of the STEP, decimal digits, and the placement of a sprite byte. -/

namespace Sys2Proof.Machine

/-- `zext_16(nnn)` (R63). -/
def zextAddr (nnn : Addr12) : Word := nnn.setWidth 16

/-- `zext_8(k)` of a key code (R163). -/
def zextKey (k : Nibble) : Byte := k.setWidth 8

/-- `nat(I)`, the base of every data access, as an unbounded natural (R43). -/
def State.base (s : State) : Nat := s.i.toNat

/-- The inputs of the STEP under way (R8): those its event carries, or, when the environment has queued
none, free values about which nothing is known (U8). Log entry 2. -/
def State.inputs (s : State) : Inputs :=
  match s.pending with
  | .step inputs :: _ => inputs
  | _ => { keys := Config.freeKeys s.draws, keyEvent := Config.freeKeyEvent s.draws,
           rand := Config.freeRand s.draws }

/-- `in.keys[k] = 1`: the key numbered `k` is down (R8). -/
def Inputs.keyDown (inp : Inputs) (k : Nat) : Bool := inp.keys.getLsbD k

/-- The key number in `Vx`, checked and never masked: above 0x0F it is out of range (R160, R161, D15). -/
def State.keyNumber (s : State) (x : RegNo) : Except Fault Nat :=
  if 0x0F < (s.reg x).toNat then .error (.outOfBounds (s.reg x).toNat) else .ok (s.reg x).toNat

/-- `PC <- trunc_16(PC + 2)` if the condition holds (R110). -/
def State.skipIf (s : State) (c : Bool) : State := if c then s.advance else s

/-- Hundreds, tens and ones of a byte, each in a byte of its own (R143). -/
def decimalDigits (a : Byte) : List Byte :=
  [BitVec.ofNat 8 (a.toNat / 100), BitVec.ofNat 8 (a.toNat / 10 % 10), BitVec.ofNat 8 (a.toNat % 10)]

/-- `0x050 + 5 * Vx`, on all 8 bits of `Vx` (R142, D22). -/
def glyphAddr (a : Byte) : Word := BitVec.ofNat 16 (0x050 + 5 * a.toNat)

/-- `rowmask(b, X) = (zext_64(b) << 56) >> X` (R152): bit 7 of the byte at column `X`, what falls beyond
column 63 is lost. -/
def rowmask (b : Byte) (column : Nat) : DisplayRow := (b.setWidth 64 <<< 56) >>> column

end Sys2Proof.Machine
end

