-- ==== Sys2Proof/Machine/Alu.lean ====
section
/-! DEFINITION. Register load, arithmetic, logic and random (spec 42_alu R120 to R132). Results are computed in
the naturals and narrowed to 8 bits, as the rules write them. -/

namespace Sys2Proof.Machine

/-- `trunc_8(nat(a + b))` (R121, R126). -/
def sum8 (a b : Byte) : Byte := BitVec.ofNat 8 (a.toNat + b.toNat)

/-- `trunc_8(nat(256 + a - b))`, that is `(a - b) mod 256` (R127, R129). -/
def diff8 (a b : Byte) : Byte := BitVec.ofNat 8 (256 + a.toNat - b.toNat)

/-- `6xnn` LD Vx, nn (R120). -/
def execLdImm (x : RegNo) (nn : Byte) (s : State) : Result := done s (s.setReg x nn)

/-- `7xnn` ADD Vx, nn (R121): no flag. -/
def execAddImm (x : RegNo) (nn : Byte) (s : State) : Result := done s (s.setReg x (sum8 (s.reg x) nn))

/-- `8xy0` LD Vx, Vy (R122). -/
def execLdReg (x y : RegNo) (s : State) : Result := done s (s.setReg x (s.reg y))

/-- `8xy1` OR Vx, Vy (R123): `VF` is not written (D21). -/
def execOrReg (x y : RegNo) (s : State) : Result := done s (s.setReg x (s.reg x ||| s.reg y))

/-- `8xy2` AND Vx, Vy (R124): `VF` is not written (D21). -/
def execAndReg (x y : RegNo) (s : State) : Result := done s (s.setReg x (s.reg x &&& s.reg y))

/-- `8xy3` XOR Vx, Vy (R125): `VF` is not written (D21). -/
def execXorReg (x y : RegNo) (s : State) : Result := done s (s.setReg x (s.reg x ^^^ s.reg y))

/-- `8xy4` ADD Vx, Vy (R126): `VF` = carry. -/
def execAddReg (x y : RegNo) (s : State) : Result :=
  done s (s.writeWithFlag x (sum8 (s.reg x) (s.reg y)) (carry (s.reg x) (s.reg y)))

/-- `8xy5` SUB Vx, Vy (R127): `VF` = no borrow. -/
def execSubReg (x y : RegNo) (s : State) : Result :=
  done s (s.writeWithFlag x (diff8 (s.reg x) (s.reg y)) (noBorrow (s.reg x) (s.reg y)))

/-- `8xy6` SHR Vx, Vy (R128): `Vx` in place; `Vy` is not used (D21). -/
def execShr (x _y : RegNo) (s : State) : Result :=
  done s (s.writeWithFlag x (s.reg x >>> 1) (lowBit (s.reg x)))

/-- `8xy7` SUBN Vx, Vy (R129): the reverse subtraction. -/
def execSubn (x y : RegNo) (s : State) : Result :=
  done s (s.writeWithFlag x (diff8 (s.reg y) (s.reg x)) (noBorrow (s.reg y) (s.reg x)))

/-- `8xyE` SHL Vx, Vy (R130): `Vx` in place; `Vy` is not used (D21). -/
def execShl (x _y : RegNo) (s : State) : Result :=
  done s (s.writeWithFlag x (s.reg x <<< 1) (highBit (s.reg x)))

/-- `Cxnn` RND Vx, nn (R131): the random byte of this STEP, masked. -/
def execRnd (x : RegNo) (nn : Byte) (s : State) : Result := done s (s.setReg x (s.inputs.rand &&& nn))

end Sys2Proof.Machine
end

