-- ==== Sys2Proof/Machine/Display.lean ====
section
/-! DEFINITION. The display instructions (spec 44_display R150 to R152). -/

namespace Sys2Proof.Machine

/-- One row of a sprite (the loop body of R151): a row past 31 is clipped; else the row is XORed with the
mask and a collision is remembered. -/
def drawRow (column : Nat) (b : Byte) (row : Nat) (d : Display) (hit : Bool) : Display × Bool :=
  if h : row < 32 then
    (d.set row (d[row] ^^^ rowmask b column), hit || collides d[row] (rowmask b column))
  else (d, hit)

/-- The rows of a sprite, top row first, from `row` downward (R151). -/
def drawRows (column : Nat) : List Byte → Nat → Display → Bool → Display × Bool
  | [], _, d, hit => (d, hit)
  | b :: bs, row, d, hit =>
    let r := drawRow column b row d hit
    drawRows column bs (row + 1) r.1 r.2

/-- The start column `Vx mod 64` (R151). -/
def startColumn (a : Byte) : Nat := a.toNat % 64

/-- The start row `Vy mod 32` (R151). -/
def startRow (a : Byte) : Nat := a.toNat % 32

/-- `00E0` CLS (R150): `VF` is not written. -/
def execCls (s : State) : Result := done s { s with disp := clearedDisplay }

/-- `Dxyn` DRW Vx, Vy, n (R151): all `n` addresses are checked first (D18); `VF` is written last, 1 iff an
on-pixel was turned off. -/
def execDrw (x y : RegNo) (n : Nibble) (s : State) : Result :=
  attempt (s.loadSpan s.base n.toNat) fun sprite =>
    let r := drawRows (startColumn (s.reg x)) sprite (startRow (s.reg y)) s.disp false
    done s ({ s with disp := r.1 }.setReg vf (flagByte r.2))

end Sys2Proof.Machine
end

