-- ==== Sys2Proof/Machine/Flow.lean ====
section
/-! DEFINITION. Control transfer, halt and the unknown word (spec 40_flow R101 to R106). When a meaning runs, `PC`
is already `pc2`, the address of the next instruction (R100). -/

namespace Sys2Proof.Machine

/-- `00EE` RET (R101): the popped value is used as it is. -/
def execRet (s : State) : Result :=
  attempt s.pop fun (target, t) => jumped s (t.setPc target)

/-- `1nnn` JP nnn (R102). -/
def execJp (nnn : Addr12) (s : State) : Result := jumped s (s.setPc (zextAddr nnn))

/-- `2nnn` CALL nnn (R103): pushes `pc2`. -/
def execCall (nnn : Addr12) (s : State) : Result :=
  attempt (s.push s.pc) fun t => jumped s (t.setPc (zextAddr nnn))

/-- `Bnnn` JP V0, nnn (R104): `V0` whatever the `x` field; not reduced modulo 4096. -/
def execJpV0 (nnn : Addr12) (s : State) : Result :=
  jumped s (s.setPc (BitVec.ofNat 16 (nnn.toNat + (s.reg 0).toNat)))

/-- `0000` HALT (R105): reports `Halt`; `PC` stays `pc2` and the CORE keeps no halted flag. -/
def execHalt (s : State) : Result := finish .halt false s s

/-- Any word the decoder does not recognise (R106, R202): reported with the word, otherwise skipped. -/
def execUnknown (w : Word) (s : State) : Result := finish (.unknownOpcode w) false s s

end Sys2Proof.Machine
end

