-- ==== Sys2Proof/Machine/Index.lean ====
section
/-! DEFINITION. The index register and the data stores and loads (spec 43_index_memory R140 to R145). `I` is never
changed by an access (D20); every address is checked before anything is written (R207). -/

namespace Sys2Proof.Machine

/-- `Annn` LD I, nnn (R140): not checked until used. -/
def execLdI (nnn : Addr12) (s : State) : Result := done s (s.setI (zextAddr nnn))

/-- `Fx1E` ADD I, Vx (R141): `I` modulo 4096, then, if `FX1E_SETS_VF`, the overflow flag. -/
def execAddI (x : RegNo) (s : State) : Result :=
  let t := s.setI (BitVec.ofNat 16 ((s.i.toNat + (s.reg x).toNat) % 4096))
  done s (if s.params.fx1eSetsVF then t.setReg vf (flagByte (indexOverflow s.i (s.reg x))) else t)

/-- `Fx29` LD F, Vx (R142). -/
def execLdF (x : RegNo) (s : State) : Result := done s (s.setI (glyphAddr (s.reg x)))

/-- `Fx33` LD B, Vx (R143): three decimal digits at `I`, `I + 1`, `I + 2`. -/
def execLdB (x : RegNo) (s : State) : Result :=
  attempt (s.storeSpan s.base (decimalDigits (s.reg x))) fun t => done s t

/-- `Fx55` LD [I], Vx (R144): `V0..Vx` to memory, `V0` at the lowest address. -/
def execStoreRegs (x : RegNo) (s : State) : Result :=
  attempt (s.storeSpan s.base (s.firstRegs (x.val + 1))) fun t => done s t

/-- `Fx65` LD Vx, [I] (R145): `V0..Vx` from memory. -/
def execLoadRegs (x : RegNo) (s : State) : Result :=
  attempt (s.loadSpan s.base (x.val + 1)) fun bytes => done s { s with v := writeRegs s.v 0 bytes }

end Sys2Proof.Machine
end

