-- ==== Sys2Proof/Machine/Skip.lean ====
section
/-! DEFINITION. The conditional skips on registers (spec 41_skip R110 to R113). -/

namespace Sys2Proof.Machine

/-- `3xnn` SE Vx, nn (R110). -/
def execSeImm (x : RegNo) (nn : Byte) (s : State) : Result :=
  done s (s.skipIf (decide (s.reg x = nn)))

/-- `4xnn` SNE Vx, nn (R111). -/
def execSneImm (x : RegNo) (nn : Byte) (s : State) : Result :=
  done s (s.skipIf (decide (s.reg x ≠ nn)))

/-- `5xy0` SE Vx, Vy (R112). -/
def execSeReg (x y : RegNo) (s : State) : Result :=
  done s (s.skipIf (decide (s.reg x = s.reg y)))

/-- `9xy0` SNE Vx, Vy (R113). -/
def execSneReg (x y : RegNo) (s : State) : Result :=
  done s (s.skipIf (decide (s.reg x ≠ s.reg y)))

end Sys2Proof.Machine
end

