-- ==== Sys2Proof/Machine/TimerKey.lean ====
section
/-! DEFINITION. The keypad and timer instructions (spec 45_timer_key R160 to R165). -/

namespace Sys2Proof.Machine

/-- `Ex9E` SKP Vx (R160): skip if the key numbered `Vx` is down. -/
def execSkp (x : RegNo) (s : State) : Result :=
  attempt (s.keyNumber x) fun k => done s (s.skipIf (s.inputs.keyDown k))

/-- `ExA1` SKNP Vx (R161): skip if it is not down. -/
def execSknp (x : RegNo) (s : State) : Result :=
  attempt (s.keyNumber x) fun k => done s (s.skipIf (!s.inputs.keyDown k))

/-- `Fx07` LD Vx, DT (R162). -/
def execLdVxDT (x : RegNo) (s : State) : Result := done s (s.setReg x s.dt)

/-- `Fx0A` LD Vx, K (R163): with a key event the wait is over; without one `PC <- pc0`, which is
`trunc_16(PC - 2)` since `PC` = pc2 here, and `WaitingForKey` is reported. -/
def execLdVxK (x : RegNo) (s : State) : Result :=
  let r : EventOutcome × State :=
    match s.inputs.keyEvent with
    | some k => (.ok, s.setReg x (zextKey k))
    | none => (.waitingForKey, s.setPc (s.pc - 2))
  finish r.1 false s r.2

/-- `Fx15` LD DT, Vx (R164). -/
def execLdDTVx (x : RegNo) (s : State) : Result := done s { s with dt := s.reg x }

/-- `Fx18` LD ST, Vx (R165). -/
def execLdSTVx (x : RegNo) (s : State) : Result := done s { s with st := s.reg x }

end Sys2Proof.Machine
end

