-- ==== Sys2Proof/Machine/Cycle.lean ====
section
/-! DEFINITION. The STEP event and the choice of the next event (spec 40_flow R100, 00_scope R7). -/

namespace Sys2Proof.Machine

/-- The STEP event (R100): fetch, which may raise; `PC <- pc2`; decode, which cannot fail; execute. A word
that is no instruction is reported (R106). -/
def instructionStep (s : State) : Result :=
  attempt s.fetchWord fun w =>
    match decodeWord w with
    | .ok i => exec i s.advance
    | .error _ => execUnknown w s.advance

/-- The next event: the first one queued, or a STEP when none is queued (log entries 1, 2). -/
def nextEvent (s : State) : Result :=
  leaveEvent <|
    match s.pending with
    | .reset :: _ => .next s.resetEvent
    | .load bytes base :: _ => s.loadEvent bytes base
    | .tick :: _ => .next s.tick
    | .step _ :: _ => instructionStep s
    | [] => instructionStep s

/-- The state the environment finds after the next event, fatal errors included (R207, R208). -/
def settle (s : State) : State :=
  match nextEvent s with
  | .next t => t
  | .fault f => s.afterFault f
  | .refused _ => s

/-- The boot sequence (R244): RESET, the font at 0x050, the program at 0x200. -/
def bootEvents (font program : List Byte) : List Event :=
  [.reset, .load font 0x050, .load program 0x200]

/-- The launch state (R250): the reset state with the font and the program in memory; `schedule` is what the
environment delivers after it, of which a run takes STEPs and TICKs only (`runFor`). -/
def launchState (params : Params) (font program : List Byte) (schedule : List Event) : State :=
  { State.reset with
    params := params
    mem := (Memory.setMany [] 0x050 font).setMany 0x200 program
    pending := schedule }

end Sys2Proof.Machine
end

