-- ==== Sys2Proof/Machine/Step.lean ====
section
/-! DEFINITION. The step function of the machine: one event (spec 00_scope R7). -/

namespace Sys2Proof.Machine

/-- One step: the next event, atomic (R7, R49). -/
def step (s : State) : Host.Outcome State Fault Refusal := nextEvent s

/-- `s` with the instruction word `w` (numbered as spec/opcode_table.json numbers it) where the next step
fetches its instruction. Log entry 11. -/
def State.withFetchWord (s : State) (nbits w : Nat) : State :=
  s.placeWord (BitVec.ofNat 16 (w % 2 ^ nbits))

end Sys2Proof.Machine
end

