-- ==== Sys2Proof/Safety.lean ====
section
/-! DEFINITION. What claims are stated in: what an event may change (frames), the invariant of reachable states
(spec 10_state R32), runs and their ends (70_reset R250). -/

namespace Sys2Proof.Machine

/-! ## Frames -/

/-- The parts of the spec's state an instruction may change besides `PC`. -/
inductive Piece where
  | reg (k : RegNo)
  | index
  /-- The entries `STACK[0..15]`. -/
  | stack
  /-- `SP`. -/
  | sp
  | delay
  | sound
  | display
  | memory
  deriving DecidableEq, Repr

/-- Every part of the state that is not listed is the same in `t` as in `s`: each register, `I`, the call
stack's entries, `SP`, both timers, every display row, every byte of memory as a read finds it; and always the
parameters and the environment's schedule. `PC` and the report may change. -/
def Frame (changes : List Piece) (s t : State) : Prop :=
  (∀ k, Piece.reg k ∉ changes → t.reg k = s.reg k) ∧
  (Piece.index ∉ changes → t.i = s.i) ∧
  (Piece.stack ∉ changes → t.stack = s.stack) ∧
  (Piece.sp ∉ changes → t.sp = s.sp) ∧
  (Piece.delay ∉ changes → t.dt = s.dt) ∧
  (Piece.sound ∉ changes → t.st = s.st) ∧
  (Piece.display ∉ changes → t.disp = s.disp) ∧
  (Piece.memory ∉ changes → ∀ a, t.memRead a = s.memRead a) ∧
  t.params = s.params ∧ t.pending = s.pending ∧ t.draws = s.draws

/-- Every byte of memory outside the `n` bytes from `base` upward reads in `t` as in `s`. -/
def SameOutside (base n : Nat) (s t : State) : Prop :=
  ∀ a, a < base ∨ base + n ≤ a → t.memRead a = s.memRead a

/-- What an instruction that began in `s` and ended in `t` reports: its outcome, whether it jumped, and the two
hint bits that compare before and after (R9). -/
def Reports (outcome : EventOutcome) (jump : Bool) (s t : State) : Prop :=
  t.report.outcome = outcome ∧ t.report.pcJumped = jump ∧
  (t.report.flagChanged = true ↔ t.reg vf ≠ s.reg vf) ∧ (t.report.displayMutated = true ↔ t.disp ≠ s.disp)

/-- `t` is `s` in every piece of the spec's state (R207: `V`, `I`, `STACK`, `SP`, `DT`, `ST`, `DISP`, `MEM`
and `PC`) and in the parameters; the schedule, the counter of free inputs and the report are not asked. -/
def SameCore (s t : State) : Prop :=
  t.v = s.v ∧ t.pc = s.pc ∧ t.i = s.i ∧ t.stack = s.stack ∧ t.sp = s.sp ∧ t.dt = s.dt ∧ t.st = s.st ∧
  t.disp = s.disp ∧ t.mem = s.mem ∧ t.params = s.params

/-- The next event is a STEP: one is queued first, or none is queued (log entry 2). -/
def State.stepsNext (s : State) : Bool :=
  match s.pending with
  | [] => true
  | e :: _ => e.isStep

/-- `pc0` can be fetched from: both bytes are in range (R100). -/
def State.fetchable (s : State) : Bool := decide (s.pc.toNat ≤ 4094)

/-- The word at the program counter, when it can be fetched (R44). -/
def State.wordAtPc (s : State) : Word := wordOfBytes (s.mem.get s.pc.toNat) (s.mem.get (s.pc.toNat + 1))

/-- The first byte and the number of bytes an instruction stores to memory (R53): none but `Fx33` and `Fx55`. -/
def storedSpan (i : Instr) (s : State) : Nat × Nat :=
  match i with
  | .ldB _ => (s.base, 3)
  | .storeRegs x => (s.base, x.val + 1)
  | .halt | .cls | .ret | .jp _ | .call _ | .seImm _ _ | .sneImm _ _ | .seReg _ _ | .ldImm _ _ | .addImm _ _
  | .ldReg _ _ | .orReg _ _ | .andReg _ _ | .xorReg _ _ | .addReg _ _ | .subReg _ _ | .shr _ _ | .subn _ _
  | .shl _ _ | .sneReg _ _ | .ldI _ | .jpV0 _ | .rnd _ _ | .drw _ _ _ | .skp _ | .sknp _ | .ldVxDT _
  | .ldVxK _ | .ldDTVx _ | .ldSTVx _ | .addI _ | .ldF _ | .loadRegs _ => (s.base, 0)

/-- `V0..Vx` as pieces of the state. -/
def regsUpTo (x : RegNo) : List Piece :=
  ((List.finRange 16).filter fun k => decide (k ≤ x)).map Piece.reg

/-- What each instruction may write besides `PC` (the column "written by" of R33); `setsVF` is the parameter
`FX1E_SETS_VF`. -/
def writes (setsVF : Bool) : Instr → List Piece
  | .halt | .jp _ | .jpV0 _ | .seImm _ _ | .sneImm _ _ | .seReg _ _ | .sneReg _ _ | .skp _ | .sknp _ => []
  | .cls => [.display]
  | .ret => [.sp]
  | .call _ => [.stack, .sp]
  | .ldImm x _ | .addImm x _ | .ldReg x _ | .orReg x _ | .andReg x _ | .xorReg x _ | .rnd x _ | .ldVxDT x
  | .ldVxK x => [.reg x]
  | .addReg x _ | .subReg x _ | .shr x _ | .subn x _ | .shl x _ => [.reg x, .reg vf]
  | .ldI _ | .ldF _ => [.index]
  | .addI _ => if setsVF then [.index, .reg vf] else [.index]
  | .drw _ _ _ => [.display, .reg vf]
  | .ldDTVx _ => [.delay]
  | .ldSTVx _ => [.sound]
  | .ldB _ | .storeRegs _ => [.memory]
  | .loadRegs x => regsUpTo x

/-- The error of an access of `n` bytes at `base`: the lowest address out of range (R204). -/
def spanFault (base n : Nat) : Option Fault :=
  if 4096 < base + n ∧ n ≠ 0 then some (.outOfBounds (max base 4096)) else none

/-- The fatal error an instruction raises in a state, if it raises one: the table of R204, R205 and R206. No
other instruction has an error. -/
def faultOf (i : Instr) (s : State) : Option Fault :=
  match i with
  | .ret => if s.sp.val = 0 then some .stackUnderflow else none
  | .call _ => if s.sp.val = 16 then some .stackOverflow else none
  | .drw _ _ n => spanFault s.base n.toNat
  | .ldB _ => spanFault s.base 3
  | .storeRegs x | .loadRegs x => spanFault s.base (x.val + 1)
  | .skp x | .sknp x => if 15 < (s.reg x).toNat then some (.outOfBounds (s.reg x).toNat) else none
  | .halt | .cls | .jp _ | .seImm _ _ | .sneImm _ _ | .seReg _ _ | .ldImm _ _ | .addImm _ _ | .ldReg _ _
  | .orReg _ _ | .andReg _ _ | .xorReg _ _ | .addReg _ _ | .subReg _ _ | .shr _ _ | .subn _ _ | .shl _ _
  | .sneReg _ _ | .ldI _ | .jpV0 _ | .rnd _ _ | .ldVxDT _ | .ldVxK _ | .ldDTVx _ | .ldSTVx _ | .addI _
  | .ldF _ => none

/-- The instruction is a jump, a call or a return (R9: `pc_jumped`). -/
def isJump : Instr → Bool
  | .jp _ | .call _ | .jpV0 _ | .ret => true
  | .halt | .cls | .seImm _ _ | .sneImm _ _ | .seReg _ _ | .ldImm _ _ | .addImm _ _ | .ldReg _ _
  | .orReg _ _ | .andReg _ _ | .xorReg _ _ | .addReg _ _ | .subReg _ _ | .shr _ _ | .subn _ _ | .shl _ _
  | .sneReg _ _ | .ldI _ | .rnd _ _ | .drw _ _ _ | .skp _ | .sknp _ | .ldVxDT _ | .ldVxK _ | .ldDTVx _
  | .ldSTVx _ | .addI _ | .ldF _ | .ldB _ | .storeRegs _ | .loadRegs _ => false

/-- The instruction reads an input of its STEP (R8). -/
def readsInputs : Instr → Bool
  | .skp _ | .sknp _ | .ldVxK _ | .rnd _ _ => true
  | .halt | .cls | .ret | .jp _ | .call _ | .seImm _ _ | .sneImm _ _ | .seReg _ _ | .ldImm _ _ | .addImm _ _
  | .ldReg _ _ | .orReg _ _ | .andReg _ _ | .xorReg _ _ | .addReg _ _ | .subReg _ _ | .shr _ _ | .subn _ _
  | .shl _ _ | .sneReg _ _ | .ldI _ | .jpV0 _ | .drw _ _ _ | .ldVxDT _ | .ldDTVx _ | .ldSTVx _ | .addI _
  | .ldF _ | .ldB _ | .storeRegs _ | .loadRegs _ => false

/-- Execute instructions one after the other, without fetching them, up to the first error. -/
def execAll : List Instr → State → Result
  | [], s => .next s
  | i :: rest, s =>
    match exec i s with
    | .next t => execAll rest t
    | .fault f => .fault f
    | .refused r => .refused r

/-! ## The invariant of reachable states -/

/-- What holds of every state reached from RESET by LOAD, STEP and TICK (R32 b to d), with the canonical form
of memory; R32 a, `SP <= 16`, is in the type of `SP`. -/
def StateInv (s : State) : Prop :=
  s.mem.wf = true ∧ s.i.toNat ≤ 0x0FFF ∧ (∀ k : Fin 16, (s.stack.get k).toNat ≤ 4096) ∧ s.pc.toNat ≤ 0x10FE

/-- Reachable from RESET under some parameters and schedule of events (00_scope glossary). -/
inductive Reachable : State → Prop where
  | reset (params : Params) (schedule : List Event) :
      Reachable { State.reset with params := params, pending := schedule }
  | event (s t : State) : Reachable s → step s = .next t → Reachable t

/-! ## Runs (R250) -/

/-- The events a run may hold: STEP and TICK, no RESET and no LOAD (R250, U13). -/
def Event.inRun : Event → Bool
  | .step _ => true
  | .tick => true
  | .reset => false
  | .load _ _ => false

/-- The next event may stand in a run: a STEP, be it one for which none is queued (log entry 2), or a TICK. -/
def State.nextInRun (s : State) : Bool :=
  match s.pending with
  | [] => true
  | e :: _ => e.inRun

/-- Where a run stands after some events (R250). -/
inductive RunStatus where
  /-- No end yet. -/
  | running (t : State)
  /-- Normal end: the first STEP whose outcome is `Halt`; the state after it is final. -/
  | halted (t : State)
  /-- Fault end: the first event that raised, with the state before it. -/
  | faulted (f : Fault) (s : State)
  /-- The next event is a RESET or a LOAD: what follows is no part of a run and is refused (R250, U13). -/
  | outsideRun (s : State)
  /-- The model had no answer; `step` never refuses. -/
  | stopped (r : Refusal)
  deriving DecidableEq, Repr

/-- A run of at most `n` events from `s`, each a STEP or a TICK, ended by the first `Halt` or the first fatal
error; it takes no RESET and no LOAD (R250). -/
def runFor : Nat → State → RunStatus
  | 0, s => .running s
  | n + 1, s =>
    if s.nextInRun then
      match step s with
      | .next t => if t.report.outcome = .halt then .halted t else runFor n t
      | .fault f => .faulted f s
      | .refused r => .stopped r
    else .outsideRun s

/-- Deliver the next `n` events, of whatever kind, up to the first error: what the environment does before a
run, the boot sequence among it (R7, R244). -/
def deliver : Nat → State → Result
  | 0, s => .next s
  | n + 1, s =>
    match step s with
    | .next t => deliver n t
    | .fault f => .fault f
    | .refused r => .refused r

/-- The report of an event a correct program never causes: an unknown word counts as a fault in proofs about
programs (U5), which errs toward the unprovable. -/
def Report.isUnsafe (r : Report) : Bool :=
  match r.outcome with
  | .unknownOpcode _ => true
  | .outOfBounds _ => true
  | .stackOverflow => true
  | .stackUnderflow => true
  | .programTooLarge => true
  | .ok => false
  | .waitingForKey => false
  | .halt => false

/-- A safe run of `n` events: each is a STEP or a TICK, none raises, none executes an unknown word (R250, U4, U5,
U13). It stops counting at a normal end (U10). -/
def safeFor : Nat → State → Bool
  | 0, _ => true
  | n + 1, s =>
    s.nextInRun &&
      match step s with
      | .next t => !t.report.isUnsafe && (decide (t.report.outcome = .halt) || safeFor n t)
      | .fault _ => false
      | .refused _ => false

end Sys2Proof.Machine
end

