-- ==== Sys2Proof/WellFormed.lean ====
section
/-! DEFINITION. What the machine asks of the data given to it. An instruction is well formed by its type
(spec 30_encoding R70); the checks below are those on the boot data (70_reset R245, R246) and on the
natural numbers an assembler writes for the fields (30_encoding R61, R69). -/

namespace Sys2Proof

/-- Operands as an assembler writes them: plain numbers, not yet known to fit their fields (R69). -/
structure RawOperands where
  x : Nat
  y : Nat
  n : Nat
  nn : Nat
  nnn : Nat
  deriving DecidableEq, Repr

/-- Every number fits the width of its field in R61: 4, 4, 4, 8 and 12 bits. -/
def RawOperands.wf (o : RawOperands) : Bool :=
  decide (o.x < 16) && decide (o.y < 16) && decide (o.n < 16) &&
    decide (o.nn < 256) && decide (o.nnn < 4096)

/-- The operands of an instruction as numbers; a field its format does not use reads 0 (R62). -/
def Instr.operands : Instr → RawOperands
  | .halt | .cls | .ret => ⟨0, 0, 0, 0, 0⟩
  | .jp nnn | .call nnn | .ldI nnn | .jpV0 nnn => ⟨0, 0, 0, 0, nnn.toNat⟩
  | .seImm x nn | .sneImm x nn | .ldImm x nn | .addImm x nn | .rnd x nn => ⟨x.val, 0, 0, nn.toNat, 0⟩
  | .seReg x y | .sneReg x y | .ldReg x y | .orReg x y | .andReg x y | .xorReg x y | .addReg x y
  | .subReg x y | .shr x y | .subn x y | .shl x y => ⟨x.val, y.val, 0, 0, 0⟩
  | .drw x y n => ⟨x.val, y.val, n.toNat, 0, 0⟩
  | .skp x | .sknp x | .ldVxDT x | .ldVxK x | .ldDTVx x | .ldSTVx x | .addI x | .ldF x | .ldB x
  | .storeRegs x | .loadRegs x => ⟨x.val, 0, 0, 0, 0⟩

/-- An instruction is well formed when its operands fit their fields. Every instruction is (R70: all
fields are "in range by construction"); `Sys2Proof.Instr.wf_of_type` in Laws says so. -/
def Instr.wf (i : Instr) : Bool := i.operands.wf

/-- `FONT_DATA` is "a sequence of exactly 80 bytes" (R245). -/
def fontWf (font : List Byte) : Bool := decide (font.length = Config.fontSize)

/-- A program that fits: `LOAD(program, 0x200)` succeeds iff it has at most 3584 bytes (R246). -/
def programWf (program : List Byte) : Bool :=
  decide (Config.programBase + program.length ≤ Config.memSize)

end Sys2Proof
end

