-- ==== Sys2Proof/Certificates/Slice0/Obligations.lean ====
section
/-! DEFINITION. The statements for the provers. In a statement about `exec`, `s` is the state after the fetch, so
`s.pc` is `pc2`, the address of the next instruction (spec 40_flow R100); "`t.pc = s.pc`" says that the
instruction goes on there. `Frame changes s t` is the frame: everything but `PC`, the report and the
pieces listed is unchanged. `Reports o j s t` says that the outcome is `o`, that `pc_jumped` is `j`, and that the
two other hint bits compare `s` with `t`; the three hint bits are the spec's decision D26. -/

open Sys2Proof Sys2Proof.Machine

/-! ## Encoding -/

/-- Words written out from the opcode map and the spec's test vectors decode to the instructions they stand for, one
or more of each family (30_encoding R65; 95_test_vectors). -/
def Obligations.DecodeOfSpecWords : Prop :=
  decodeWord 0x0000 = .ok .halt ∧ decodeWord 0x00E0 = .ok .cls ∧ decodeWord 0x00EE = .ok .ret ∧
  decodeWord 0x1200 = .ok (.jp 0x200) ∧ decodeWord 0x2300 = .ok (.call 0x300) ∧
  decodeWord 0x332A = .ok (.seImm 3 0x2A) ∧ decodeWord 0x9120 = .ok (.sneReg 1 2) ∧
  decodeWord 0x6005 = .ok (.ldImm 0 5) ∧ decodeWord 0x8F14 = .ok (.addReg 15 1) ∧
  decodeWord 0x812E = .ok (.shl 1 2) ∧ decodeWord 0xA2F0 = .ok (.ldI 0x2F0) ∧
  decodeWord 0xF21E = .ok (.addI 2) ∧ decodeWord 0xF255 = .ok (.storeRegs 2) ∧
  decodeWord 0xD125 = .ok (.drw 1 2 5) ∧ decodeWord 0xE5A1 = .ok (.sknp 5) ∧
  decodeWord 0xF30A = .ok (.ldVxK 3) ∧ decodeWord 0x5AB1 = .error (.unknownOpcode 0x5AB1)

/-- For every instruction, decoding its two bytes gives it back, with every operand at every value its field
admits, and leaves the bytes after it (30_encoding R60 to R65, R70). -/
def Obligations.EncodeThenDecodeIsIdentity : Prop :=
  ∀ (i : Instr) (rest : List Byte), decode (encodeBytes i ++ rest) = .ok (i, rest)

/-- A word that decodes to an instruction is that instruction's word: no bit of it is dropped (R61 to R65). -/
def Obligations.DecodeThenEncodeIsIdentity : Prop :=
  ∀ (w : Word) (i : Instr), decodeWord w = .ok i → encode i = w

/-- A word is an instruction exactly when it matches that instruction's mask and match of the opcode map (R65). -/
def Obligations.DecodeAgreesWithOpcodeMap : Prop :=
  ∀ w : Word, (∀ i, decodeWord w = .ok i → i.row ∈ opcodeRows ∧ w &&& i.row.mask = i.row.pattern) ∧
    (∀ r ∈ opcodeRows, w &&& r.mask = r.pattern → ∃ i, decodeWord w = .ok i ∧ i.row = r)

/-- The unknown words are exactly those of the six classes of R66 (derived there from R64, which reads the patterns
literally: the spec's decision D12), and the decoder reports the word. -/
def Obligations.UnknownWordsAreTheListedOnes : Prop :=
  ∀ w : Word, (decodeWord w = .error (.unknownOpcode w) ∨ ∃ i, decodeWord w = .ok i) ∧
    (decodeWord w = .error (.unknownOpcode w) ↔
      ((opField w = 0x0 ∧ nnnField w ≠ 0x000 ∧ nnnField w ≠ 0x0E0 ∧ nnnField w ≠ 0x0EE) ∨
       (opField w = 0x5 ∧ nField w ≠ 0) ∨
       (opField w = 0x8 ∧ (nField w).toNat ∈ [0x8, 0x9, 0xA, 0xB, 0xC, 0xD, 0xF]) ∨
       (opField w = 0x9 ∧ nField w ≠ 0) ∨
       (opField w = 0xE ∧ (nnField w).toNat ∉ [0x9E, 0xA1]) ∨
       (opField w = 0xF ∧
         (nnField w).toNat ∉ [0x07, 0x0A, 0x15, 0x18, 0x1E, 0x29, 0x33, 0x55, 0x65])))

/-- A word placed for the next step is what that step fetches, from any state (the model's own placement, log
entry 11; big-endian, R44). -/
def Obligations.PlacedWordIsFetchedNext : Prop :=
  ∀ (s : State) (w : Word),
    (s.withFetchWord 16 w.toNat).stepsNext = true ∧ (s.withFetchWord 16 w.toNat).fetchable = true ∧
    (s.withFetchWord 16 w.toNat).fetchWord = .ok w

/-! ## Memory -/

/-- Every address 0..4095 is writable and reads back what was written, every other byte reads as before, nothing
else changes; an address above 4095 is refused with the address (R42). -/
def Obligations.WrittenByteReadsBack : Prop :=
  ∀ (s : State) (a : Nat) (b : Byte),
    (a ≤ 4095 → ∃ t, s.memWrite a b = .ok t ∧ t.memRead a = .ok b ∧ SameOutside a 1 s t ∧
      t = { s with mem := t.mem }) ∧
    (4095 < a → s.memWrite a b = .error (.outOfBounds a) ∧ s.memRead a = .error (.outOfBounds a))

/-- Instruction fetch reads the byte at `PC` as bits 15:8 and the byte at `PC + 1` as bits 7:0, at any `PC` up to
4094; at 4095 it reports 4096 and does not wrap, above it reports `PC` (R41, R44). -/
def Obligations.FetchIsBigEndianAndBounded : Prop :=
  ∀ s : State,
    (s.pc.toNat ≤ 4094 → ∃ hi lo : Byte, s.memRead s.pc.toNat = .ok hi ∧ s.memRead (s.pc.toNat + 1) = .ok lo ∧
      ∃ w : Word, s.fetchWord = .ok w ∧ w.toNat = 256 * hi.toNat + lo.toNat) ∧
    (s.pc.toNat = 4095 → s.fetchWord = .error (.outOfBounds 4096)) ∧
    (4095 < s.pc.toNat → s.fetchWord = .error (.outOfBounds s.pc.toNat))

/-- Two memories in canonical form that read alike at every address are the same data, so comparing states
compares memories (the model's representation, log entry 13). -/
def Obligations.EqualReadsAreEqualMemories : Prop :=
  ∀ m k : Memory, m.wf = true → k.wf = true → (∀ a, m.get a = k.get a) → m = k

/-- A stored byte is what the next fetch of its address returns: after `Fx55`, a fetch inside the block reads two
neighbouring registers (20_memory R52, the spec's decision D27). -/
def Obligations.StoreIsFetchedAtOnce : Prop :=
  ∀ (s t : State) (x : RegNo) (k : Nat) (h : k + 1 ≤ x.val), exec (.storeRegs x) s = .next t →
    (t.setPc (BitVec.ofNat 16 (s.base + k))).fetchWord =
      .ok (wordOfBytes (s.reg ⟨k, by omega⟩) (s.reg ⟨k + 1, by omega⟩))

/-! ## The step -/

/-- When the next event is a STEP and the word at `PC` decodes to `i`, the step is `exec i` with `PC` moved past the
word: the same next state, the event taken from the schedule (or, when none was queued, the counter of
free inputs advanced; log entries 1, 2), or the same error (R100). -/
def Obligations.StepRunsTheDecodedInstruction : Prop :=
  ∀ (s : State) (i : Instr), s.stepsNext = true → s.fetchable = true → decodeWord s.wordAtPc = .ok i →
    (∀ t, exec i { s with pc := s.pc + 2 } = .next t →
      ∃ u, step s = .next u ∧ SameCore t u ∧ u.report = t.report ∧ u.pending = t.pending.tail ∧
        u.draws = if t.pending = [] then t.draws + 1 else t.draws) ∧
    (∀ f, exec i { s with pc := s.pc + 2 } = .fault f → step s = .fault f)

/-- A STEP whose two bytes are not both in range raises `OutOfBounds` before anything is decoded (R100, R204; the
order of the checks is the spec's decision D8). -/
def Obligations.FetchOutOfRangeStopsTheStep : Prop :=
  ∀ s : State, s.stepsNext = true →
    (s.pc.toNat = 4095 → step s = .fault (.outOfBounds 4096)) ∧
    (4095 < s.pc.toNat → step s = .fault (.outOfBounds s.pc.toNat))

/-- A word that is no instruction is reported with the word and skipped: `PC` moves past it, nothing else changes
(R106, the spec's decision D10; log entry 8). -/
def Obligations.UnknownWordIsReportedAndSkipped : Prop :=
  ∀ s : State, s.stepsNext = true → s.fetchable = true →
    decodeWord s.wordAtPc = .error (.unknownOpcode s.wordAtPc) →
    ∃ t, step s = .next t ∧ SameCore { s with pc := s.pc + 2 } t ∧
      Reports (.unknownOpcode s.wordAtPc) false s t

/-- No event is refused: every word has a meaning or is reported, every event is taken (R65, R70, R201). -/
def Obligations.NothingIsRefused : Prop :=
  ∀ (s : State) (r : Refusal), step s ≠ .refused r ∧ ∀ i, exec i s ≠ .refused r

/-- Each instruction completes in exactly the states in which it has no error, and else raises exactly the error
the table of R204 to R206 gives (their conditions rest on the spec's decisions D5, D8, D15, D18). -/
def Obligations.EachInstructionCompletesOrRaisesItsError : Prop :=
  ∀ (i : Instr) (s : State),
    (faultOf i s = none → ∃ t, exec i s = .next t) ∧ (∀ f, faultOf i s = some f → exec i s = .fault f)

/-- An instruction that completes changes, besides `PC` and the report, only what the read/write matrix lists for
it (for `00EE` that is `SP` alone), and no byte of memory outside the bytes it stores to (R33, R53). That `I`
survives `Fx33`, `Fx55`, `Fx65` and `Dxyn` is the spec's decision D20, and that `VF` survives the logic
instructions D21 (log entries 23, 24). -/
def Obligations.InstructionsWriteOnlyWhatTheMatrixLists : Prop :=
  ∀ (i : Instr) (s t : State), exec i s = .next t →
    Frame (writes s.params.fx1eSetsVF i) s t ∧ SameOutside (storedSpan i s).1 (storedSpan i s).2 s t

/-- What a completed instruction reports: `Halt` for HALT, `WaitingForKey` for `Fx0A` without a key event, else
`Ok`; `pc_jumped` for jumps, calls and returns; the two other hints by comparing before and after (R9,
the spec's decision D26). -/
def Obligations.CompletedInstructionsReportTheirOutcome : Prop :=
  ∀ (i : Instr) (s t : State), exec i s = .next t →
    Reports (if i = .halt then .halt
             else if (∃ x, i = .ldVxK x) ∧ s.inputs.keyEvent = none then .waitingForKey else .ok)
      (isJump i) s t

/-- An instruction that reads no input is unaffected by the inputs, the schedule and the counter of free inputs
(R8, R100 d). -/
def Obligations.OnlyFourInstructionsReadTheInputs : Prop :=
  ∀ (i : Instr) (s : State) (p : List Event) (d : Nat), readsInputs i = false →
    (∀ t, exec i s = .next t →
      exec i { s with pending := p, draws := d } = .next { t with pending := p, draws := d }) ∧
    (∀ f, exec i s = .fault f → exec i { s with pending := p, draws := d } = .fault f)

/-- No rule reads the report: an event answers the same whatever the last one reported (R9, R30; the report field
is the model's, log entry 4). -/
def Obligations.ReportIsNeverRead : Prop :=
  ∀ (s : State) (r : Report), step { s with report := r } = step s ∧
    ∀ i, exec i { s with report := r } = exec i s

/-- A fatal error changes nothing: the state the environment finds is the state before, with the error reported and
the event taken (R207, the spec's decision D7; log entry 3). That the three hint bits of the report are 0
is decision D26 for a STEP and the model's choice for a LOAD (log entries 5, 28). -/
def Obligations.FatalErrorsChangeNothing : Prop :=
  ∀ (s : State) (f : Fault), step s = .fault f →
    SameCore s (settle s) ∧ (settle s).report = ⟨f.outcome, false, false, false⟩ ∧
    (settle s).pending = s.pending.tail

/-- A fault recurs: a later STEP from a state with the same registers, `PC`, `I`, `SP` and memory raises the same
error, whatever the timers, the display and the inputs are (R208, the spec's decision D35). -/
def Obligations.FaultRecursOnTheNextStep : Prop :=
  ∀ (s t : State) (f : Fault), s.stepsNext = true → t.stepsNext = true → step s = .fault f →
    t.v = s.v → t.pc = s.pc → t.i = s.i → t.sp = s.sp → (∀ a, t.memRead a = s.memRead a) →
    step t = .fault f

/-! ## RESET, LOAD, TICK, boot -/

/-- The reset values (10_state R31). Those of `V`, `PC`, `STACK` and `MEM` are the source's; those of `I`, `SP`,
`DT`, `ST` and `DISP` rest on the spec's decision D23; the empty schedule and the report are the model's
choice (log entries 1, 4). The parameter is no value of R31 and RESET does not touch it: false is its default
(R4, the spec's decision D16; log entry 6). -/
def Obligations.ResetValues : Prop :=
  (∀ k, State.reset.reg k = 0x00) ∧ State.reset.pc = 0x0200 ∧ State.reset.i = 0x0000 ∧
  (∀ k, State.reset.stack.get k = 0x0000) ∧ State.reset.sp = 0 ∧ State.reset.dt = 0x00 ∧
  State.reset.st = 0x00 ∧ (∀ r, State.reset.disp.get r = 0) ∧
  (∀ a, a ≤ 4095 → State.reset.memRead a = .ok 0x00) ∧ State.reset.params.fx1eSetsVF = false ∧
  State.reset.pending = [] ∧ State.reset.report = ⟨.ok, false, false, false⟩

/-- RESET always has the same effect whatever the state was, and leaves the parameters (R240, R241; the spec's
decisions D23 and D33). That it keeps the schedule and reports hint bits 0 is the model's choice (log entries
1, 5). -/
def Obligations.ResetEventFromAnyState : Prop :=
  ∀ (s : State) (rest : List Event), s.pending = .reset :: rest →
    ∃ t, step s = .next t ∧ SameCore { State.reset with params := s.params } t ∧ t.pending = rest ∧
      t.report = Report.okay

/-- LOAD writes its bytes at ascending addresses and changes nothing else; one that does not fit raises
`ProgramTooLarge` (R243, the spec's decision D25). R243 gives the outcome `Ok`; that it reports hint bits 0 is
the model's choice, log entry 5. -/
def Obligations.LoadWritesItsBytesOrRaises : Prop :=
  ∀ (s : State) (bytes : List Byte) (base : Nat) (rest : List Event), s.pending = .load bytes base :: rest →
    (base + bytes.length ≤ 4096 → ∃ t, step s = .next t ∧
      (∀ (k : Nat) (h : k < bytes.length), t.memRead (base + k) = .ok bytes[k]) ∧
      SameOutside base bytes.length s t ∧ t = { s with mem := t.mem, pending := rest, report := Report.okay }) ∧
    (4096 < base + bytes.length → step s = .fault .programTooLarge)

/-- TICK decrements each timer by 1, floored at 0, independently, and changes nothing else (R214); that it reports
hint bits 0 is the model's choice, log entry 5. -/
def Obligations.TickDecrementsBothTimers : Prop :=
  ∀ (s : State) (rest : List Event), s.pending = .tick :: rest →
    ∃ t, step s = .next t ∧ t.dt.toNat = s.dt.toNat - 1 ∧ t.st.toNat = s.st.toNat - 1 ∧
      t = { s with dt := t.dt, st := t.st, pending := rest, report := Report.okay }

/-- Any number of TICKs: each timer loses that many and stays at 0 once there; nothing else changes (R214). -/
def Obligations.TimersCountDownAndStayAtZero : Prop :=
  ∀ (n : Nat) (s : State) (rest : List Event), s.pending = List.replicate n .tick ++ rest →
    ∃ t, runFor n s = .running t ∧ t.dt.toNat = s.dt.toNat - n ∧ t.st.toNat = s.st.toNat - n ∧
      t.v = s.v ∧ t.pc = s.pc ∧ t.i = s.i ∧ t.stack = s.stack ∧ t.sp = s.sp ∧ t.disp = s.disp ∧
      t.mem = s.mem ∧ t.pending = rest

/-- The boot sequence ends in the launch state, from any state, with any font of 80 bytes and any program that
fits (R244, R250; the spec's decisions D23, D24, D25, D33; log entries 26, 27). That RESET keeps the schedule and
that the last LOAD reports hint bits 0 is the model's choice (log entries 1, 5). -/
def Obligations.BootReachesTheLaunchState : Prop :=
  ∀ (s : State) (font program : List Byte) (schedule : List Event), fontWf font = true →
    programWf program = true → s.pending = bootEvents font program ++ schedule →
    deliver 3 s = .next { launchState s.params font program schedule with draws := s.draws }

/-- What the launch state's memory holds: the font at 0x050, the program at 0x200, 0 elsewhere (R250). -/
def Obligations.LaunchMemoryHoldsFontAndProgram : Prop :=
  ∀ (params : Params) (font program : List Byte) (schedule : List Event), fontWf font = true →
    programWf program = true →
    (∀ (k : Nat) (h : k < font.length),
      (launchState params font program schedule).memRead (0x050 + k) = .ok font[k]) ∧
    (∀ (k : Nat) (h : k < program.length),
      (launchState params font program schedule).memRead (0x200 + k) = .ok program[k]) ∧
    (∀ a, a ≤ 4095 → (a < 0x050 ∨ 0x0A0 ≤ a) → (a < 0x200 ∨ 0x200 + program.length ≤ a) →
      (launchState params font program schedule).memRead a = .ok 0x00)

/-! ## Invariants and runs -/

/-- The invariant holds after RESET, under every parameter and schedule (R31, R32). The canonical form of memory in
it is the model's (log entry 13), and the reset value of `I` is the spec's decision D23 (log entry 26). -/
def Obligations.ResetMeetsTheInvariant : Prop :=
  ∀ (params : Params) (schedule : List Event),
    StateInv { State.reset with params := params, pending := schedule }

/-- Every event keeps the invariant: memory in canonical form, `I <= 0x0FFF`, every stack entry `<= 4096`,
`PC <= 0x10FE` (R32, derived by the spec; the canonical form is the model's, log entry 13). -/
def Obligations.EveryStepKeepsTheInvariant : Prop :=
  ∀ s t : State, StateInv s → step s = .next t → StateInv t

/-- Every reachable state meets the bounds of R32 on `I`, the stack entries and `PC`, and its memory is in the
canonical form, which is the model's (log entry 13). -/
def Obligations.ReachableStatesAreBounded : Prop :=
  ∀ s : State, Reachable s → StateInv s

/-- A run that has ended, normally or by a fault, stays ended with the same state however long it is observed
(R250, the spec's decision D11; log entry 7). -/
def Obligations.EndOfRunIsFinal : Prop :=
  ∀ (n m : Nat) (s : State),
    (∀ t, runFor n s = .halted t → runFor (n + m) s = .halted t) ∧
    (∀ f t, runFor n s = .faulted f t → runFor (n + m) s = .faulted f t)

/-- Along a run that `safeFor` accepts, after every number of events the run is going on or has halted, and every
event has reported `Ok`, `WaitingForKey` or `Halt`: no fatal error, no unknown word, no RESET and no LOAD
at any of them (R250; U4, U5, U10, U13 of 93; log entries 3, 7, 8). -/
def Obligations.SafeRunsDoNotFault : Prop :=
  ∀ (n : Nat) (s : State), safeFor n s = true → ∀ m ≤ n,
    ∃ t, (runFor m s = .running t ∨ runFor m s = .halted t) ∧
      (m ≠ 0 → t.report.outcome = .ok ∨ t.report.outcome = .waitingForKey ∨ t.report.outcome = .halt)

/-! ## Control transfer and halt -/

/-- `1nnn`: `PC := nnn`. `Bnnn`: `PC := nnn + V0`, `V0` always, not reduced modulo 4096. The stack and everything else
is untouched; both report `Ok` with `pc_jumped` 1 (R102, R104; hint bits: decision D26). -/
def Obligations.JumpsSetPc : Prop :=
  ∀ (nnn : Addr12) (s : State),
    (∃ t, exec (.jp nnn) s = .next t ∧ t.pc.toNat = nnn.toNat ∧ Reports .ok true s t ∧ Frame [] s t) ∧
    (∃ t, exec (.jpV0 nnn) s = .next t ∧ t.pc.toNat = nnn.toNat + (s.reg 0).toNat ∧ Reports .ok true s t ∧
      Frame [] s t)

/-- `2nnn`: with room on the stack it pushes the address of the next instruction and jumps, the other entries
keep their values; with 16 entries it raises `StackOverflow` (R103; push is R24 with decision D6; hint bits:
D26). -/
def Obligations.CallPushesAndJumps : Prop :=
  ∀ (nnn : Addr12) (s : State),
    (s.sp.val < 16 → ∃ t, exec (.call nnn) s = .next t ∧ t.pc.toNat = nnn.toNat ∧
      t.sp.val = s.sp.val + 1 ∧ (∀ k : Fin 16, t.stack.get k = if k.val = s.sp.val then s.pc else s.stack.get k) ∧
      Reports .ok true s t ∧ Frame [.stack, .sp] s t) ∧
    (s.sp.val = 16 → exec (.call nnn) s = .fault .stackOverflow)

/-- `00EE`: pops the top entry into `PC`, all 16 bits, leaving the entries as they were; with an empty stack it
raises `StackUnderflow` (R101; pop is R24 with decision D6; hint bits: D26). -/
def Obligations.ReturnPopsIntoPc : Prop :=
  ∀ s : State,
    (∀ k : Fin 16, s.sp.val = k.val + 1 → ∃ t, exec .ret s = .next t ∧ t.pc = s.stack.get k ∧
      t.sp.val = k.val ∧ t.stack = s.stack ∧ Reports .ok true s t ∧ Frame [.sp] s t) ∧
    (s.sp.val = 0 → exec .ret s = .fault .stackUnderflow)

/-- A return executed anywhere after a call comes back to the instruction after the call, with the stack as deep as
before it (R101, R103: "restores PC to the instruction immediately after the call"). -/
def Obligations.ReturnComesBackAfterTheCall : Prop :=
  ∀ (nnn : Addr12) (s t : State) (p : Word), exec (.call nnn) s = .next t →
    ∃ u, exec .ret { t with pc := p } = .next u ∧ u.pc = s.pc ∧ u.sp = s.sp ∧
      ∀ k : Fin 16, k.val < s.sp.val → u.stack.get k = s.stack.get k

/-- Calls nest as long as the stack has room and the next one overflows: from an empty stack 16 succeed and the
17th fails (R25, R205; the range of `SP` is the spec's decision D5). -/
def Obligations.SixteenNestedCallsThenOverflow : Prop :=
  ∀ (targets : List Addr12) (s : State), s.sp.val + targets.length ≤ 16 →
    ∃ t, execAll (targets.map .call) s = .next t ∧ t.sp.val = s.sp.val + targets.length ∧
      (s.sp.val + targets.length = 16 → ∀ nnn, exec (.call nnn) t = .fault .stackOverflow)

/-- `0000`: reports `Halt`; `PC` stays past the word and nothing changes (R105, the spec's decision D11). -/
def Obligations.HaltReportsAndChangesNothing : Prop :=
  ∀ s : State, ∃ t, exec .halt s = .next t ∧ t.pc = s.pc ∧ Reports .halt false s t ∧ Frame [] s t

/-! ## Skips -/

/-- `3xnn` skips the next instruction iff `Vx = nn`, `4xnn` iff not; `5xy0` iff `Vx = Vy`, `9xy0` iff not; nothing but
`PC` changes; each reports `Ok` with `pc_jumped` 0 (R110 to R113; hint bits: decision D26). -/
def Obligations.RegisterCompareSkips : Prop :=
  ∀ (x y : RegNo) (nn : Byte) (s : State),
    (∃ t, exec (.seImm x nn) s = .next t ∧ t.pc = (if s.reg x = nn then s.pc + 2 else s.pc) ∧
      Reports .ok false s t ∧ Frame [] s t) ∧
    (∃ t, exec (.sneImm x nn) s = .next t ∧ t.pc = (if s.reg x = nn then s.pc else s.pc + 2) ∧
      Reports .ok false s t ∧ Frame [] s t) ∧
    (∃ t, exec (.seReg x y) s = .next t ∧ t.pc = (if s.reg x = s.reg y then s.pc + 2 else s.pc) ∧
      Reports .ok false s t ∧ Frame [] s t) ∧
    (∃ t, exec (.sneReg x y) s = .next t ∧ t.pc = (if s.reg x = s.reg y then s.pc else s.pc + 2) ∧
      Reports .ok false s t ∧ Frame [] s t)

/-- `Ex9E` skips iff key `Vx` is down, `ExA1` iff it is not; a key number above 15 raises `OutOfBounds` with the
number (R160, R161; the error is the spec's decision D15; hint bits: D26). The key state is that of the STEP
event under way (R8, the spec's decision D3; log entry 1). -/
def Obligations.KeySkips : Prop :=
  ∀ (x : RegNo) (s : State),
    (∀ inp rest, s.pending = .step inp :: rest → s.inputs = inp) ∧
    ((s.reg x).toNat ≤ 15 →
      (∃ t, exec (.skp x) s = .next t ∧
        t.pc = (if s.inputs.keys.getLsbD (s.reg x).toNat = true then s.pc + 2 else s.pc) ∧
        Reports .ok false s t ∧ Frame [] s t) ∧
      (∃ t, exec (.sknp x) s = .next t ∧
        t.pc = (if s.inputs.keys.getLsbD (s.reg x).toNat = true then s.pc else s.pc + 2) ∧
        Reports .ok false s t ∧ Frame [] s t)) ∧
    (15 < (s.reg x).toNat →
      exec (.skp x) s = .fault (.outOfBounds (s.reg x).toNat) ∧
      exec (.sknp x) s = .fault (.outOfBounds (s.reg x).toNat))

/-! ## Loads, arithmetic, logic, random -/

/-- `6xnn`: `Vx := nn`. `7xnn`: `Vx := Vx + nn` modulo 256, `VF` not written as a flag. `8xy0`: `Vx := Vy`. `Annn`:
`I := nnn`. Nothing else changes; each ends with outcome `Ok` (R120 but for its hint bit, R121, R122, R140). -/
def Obligations.LoadsAndImmediateAdd : Prop :=
  ∀ (x y : RegNo) (nn : Byte) (nnn : Addr12) (s : State),
    (∃ t, exec (.ldImm x nn) s = .next t ∧ t.reg x = nn ∧ t.pc = s.pc ∧ t.report.outcome = .ok ∧
      Frame [.reg x] s t) ∧
    (∃ t, exec (.addImm x nn) s = .next t ∧ (t.reg x).toNat = ((s.reg x).toNat + nn.toNat) % 256 ∧
      t.pc = s.pc ∧ t.report.outcome = .ok ∧ Frame [.reg x] s t) ∧
    (∃ t, exec (.ldReg x y) s = .next t ∧ t.reg x = s.reg y ∧ t.pc = s.pc ∧ t.report.outcome = .ok ∧
      Frame [.reg x] s t) ∧
    (∃ t, exec (.ldI nnn) s = .next t ∧ t.i.toNat = nnn.toNat ∧ t.pc = s.pc ∧ t.report.outcome = .ok ∧
      Frame [.index] s t)

/-- `8xy1`, `8xy2`, `8xy3`: bit by bit OR, AND, XOR into `Vx`; no flag (R123 to R125; that `VF` is left alone is the
spec's decision D21). -/
def Obligations.BitwiseLogic : Prop :=
  ∀ (x y : RegNo) (s : State),
    (∃ t, exec (.orReg x y) s = .next t ∧
      (∀ j < 8, (t.reg x).getLsbD j = ((s.reg x).getLsbD j || (s.reg y).getLsbD j)) ∧
      t.pc = s.pc ∧ t.report.outcome = .ok ∧ Frame [.reg x] s t) ∧
    (∃ t, exec (.andReg x y) s = .next t ∧
      (∀ j < 8, (t.reg x).getLsbD j = ((s.reg x).getLsbD j && (s.reg y).getLsbD j)) ∧
      t.pc = s.pc ∧ t.report.outcome = .ok ∧ Frame [.reg x] s t) ∧
    (∃ t, exec (.xorReg x y) s = .next t ∧
      (∀ j < 8, (t.reg x).getLsbD j = ((s.reg x).getLsbD j != (s.reg y).getLsbD j)) ∧
      t.pc = s.pc ∧ t.report.outcome = .ok ∧ Frame [.reg x] s t)

/-- `8xy4`: the sum modulo 256 in `Vx`, then the carry in `VF`; with `x = F` the carry is what remains (R126;
hint bits: the spec's decision D26). -/
def Obligations.AddWithCarryOut : Prop :=
  ∀ (x y : RegNo) (s : State), ∃ t, exec (.addReg x y) s = .next t ∧
    t.reg vf = (if 255 < (s.reg x).toNat + (s.reg y).toNat then 0x01 else 0x00) ∧
    (x ≠ vf → (t.reg x).toNat = ((s.reg x).toNat + (s.reg y).toNat) % 256) ∧
    t.pc = s.pc ∧ Reports .ok false s t ∧ Frame [.reg x, .reg vf] s t

/-- `8xy5`, `8xy7`: the difference modulo 256 in `Vx`, then `VF` = 1 iff no borrow occurred; with `x = F` the flag is
what remains; outcome `Ok` (R127, R129). -/
def Obligations.SubtractBothWays : Prop :=
  ∀ (x y : RegNo) (s : State),
    (∃ t, exec (.subReg x y) s = .next t ∧
      t.reg vf = (if (s.reg y).toNat ≤ (s.reg x).toNat then 0x01 else 0x00) ∧
      (x ≠ vf → (t.reg x).toNat =
        if (s.reg y).toNat ≤ (s.reg x).toNat then (s.reg x).toNat - (s.reg y).toNat
        else 256 + (s.reg x).toNat - (s.reg y).toNat) ∧
      t.pc = s.pc ∧ t.report.outcome = .ok ∧ Frame [.reg x, .reg vf] s t) ∧
    (∃ t, exec (.subn x y) s = .next t ∧
      t.reg vf = (if (s.reg x).toNat ≤ (s.reg y).toNat then 0x01 else 0x00) ∧
      (x ≠ vf → (t.reg x).toNat =
        if (s.reg x).toNat ≤ (s.reg y).toNat then (s.reg y).toNat - (s.reg x).toNat
        else 256 + (s.reg y).toNat - (s.reg x).toNat) ∧
      t.pc = s.pc ∧ t.report.outcome = .ok ∧ Frame [.reg x, .reg vf] s t)

/-- `8xy6`, `8xyE`: `Vx` shifted by one, the bit shifted out in `VF`; with `x = F` the flag is what remains (R128,
R130; that `Vy` is not used is the spec's decision D21). -/
def Obligations.ShiftsByOne : Prop :=
  ∀ (x y : RegNo) (s : State),
    (∃ t, exec (.shr x y) s = .next t ∧ (t.reg vf).toNat = (s.reg x).toNat % 2 ∧
      (x ≠ vf → (t.reg x).toNat = (s.reg x).toNat / 2) ∧
      t.pc = s.pc ∧ t.report.outcome = .ok ∧ Frame [.reg x, .reg vf] s t) ∧
    (∃ t, exec (.shl x y) s = .next t ∧ (t.reg vf).toNat = (s.reg x).toNat / 128 ∧
      (x ≠ vf → (t.reg x).toNat = 2 * (s.reg x).toNat % 256) ∧
      t.pc = s.pc ∧ t.report.outcome = .ok ∧ Frame [.reg x, .reg vf] s t)

/-- `Cxnn`: the random byte of this STEP masked with `nn`, whatever the byte is; outcome `Ok` (R131).
The byte is the one the STEP event under way carries (R8, the spec's decision D3; log entry 1). -/
def Obligations.RandomByteIsMasked : Prop :=
  ∀ (x : RegNo) (nn : Byte) (s : State), (∀ inp rest, s.pending = .step inp :: rest → s.inputs = inp) ∧
    ∃ t, exec (.rnd x nn) s = .next t ∧
    t.reg x = s.inputs.rand &&& nn ∧ (∀ j < 8, nn.getLsbD j = false → (t.reg x).getLsbD j = false) ∧
    (nn = 0x00 → t.reg x = 0x00) ∧ (nn = 0xFF → t.reg x = s.inputs.rand) ∧
    t.pc = s.pc ∧ t.report.outcome = .ok ∧ Frame [.reg x] s t

/-! ## Index register and memory instructions -/

/-- `Fx1E`: `I := (I + Vx) mod 4096`; `VF` is written only if `FX1E_SETS_VF`, then with 1 iff the unreduced sum exceeds
0xFFF (R141; the default of the parameter is the spec's decision D16). -/
def Obligations.AddIndexWrapsAt4096 : Prop :=
  ∀ (x : RegNo) (s : State), ∃ t, exec (.addI x) s = .next t ∧
    t.i.toNat = (s.i.toNat + (s.reg x).toNat) % 4096 ∧
    t.reg vf = (if s.params.fx1eSetsVF = true then
        (if 0x0FFF < s.i.toNat + (s.reg x).toNat then 0x01 else 0x00) else s.reg vf) ∧
    t.pc = s.pc ∧ t.report.outcome = .ok ∧ Frame [.index, .reg vf] s t

/-- `Fx29`: `I := 0x050 + 5 * Vx` on all 8 bits of `Vx` (R142, the spec's decision D22). -/
def Obligations.GlyphAddress : Prop :=
  ∀ (x : RegNo) (s : State), ∃ t, exec (.ldF x) s = .next t ∧ t.i.toNat = 0x050 + 5 * (s.reg x).toNat ∧
    t.pc = s.pc ∧ t.report.outcome = .ok ∧ Frame [.index] s t

/-- `Fx33`: the three decimal digits of `Vx` at `I`, `I + 1`, `I + 2` and nowhere else, or `OutOfBounds` (R143; `I` kept
and the check are the spec's decisions D20, D8). -/
def Obligations.DecimalDigitsAreStored : Prop :=
  ∀ (x : RegNo) (s : State),
    (s.base + 3 ≤ 4096 → ∃ t, exec (.ldB x) s = .next t ∧
      t.memRead s.base = .ok (BitVec.ofNat 8 ((s.reg x).toNat / 100)) ∧
      t.memRead (s.base + 1) = .ok (BitVec.ofNat 8 ((s.reg x).toNat / 10 % 10)) ∧
      t.memRead (s.base + 2) = .ok (BitVec.ofNat 8 ((s.reg x).toNat % 10)) ∧
      SameOutside s.base 3 s t ∧ t.pc = s.pc ∧ t.report.outcome = .ok ∧ Frame [.memory] s t) ∧
    (4096 < s.base + 3 → exec (.ldB x) s = .fault (.outOfBounds (max s.base 4096)))

/-- `Fx55`: `V0..Vx` at `I` upward and nowhere else, or `OutOfBounds` (R144; decisions D20, D8). -/
def Obligations.RegistersAreStored : Prop :=
  ∀ (x : RegNo) (s : State),
    (s.base + x.val ≤ 4095 → ∃ t, exec (.storeRegs x) s = .next t ∧
      (∀ k : RegNo, k ≤ x → t.memRead (s.base + k.val) = .ok (s.reg k)) ∧
      SameOutside s.base (x.val + 1) s t ∧ t.pc = s.pc ∧ t.report.outcome = .ok ∧ Frame [.memory] s t) ∧
    (4095 < s.base + x.val → exec (.storeRegs x) s = .fault (.outOfBounds (max s.base 4096)))

/-- `Fx65`: `V0..Vx` from `I` upward, the registers above `x` and memory kept, or `OutOfBounds` (R145; decisions D20,
D8). -/
def Obligations.RegistersAreLoaded : Prop :=
  ∀ (x : RegNo) (s : State),
    (s.base + x.val ≤ 4095 → ∃ t, exec (.loadRegs x) s = .next t ∧
      (∀ k : RegNo, k ≤ x → s.memRead (s.base + k.val) = .ok (t.reg k)) ∧
      t.pc = s.pc ∧ t.report.outcome = .ok ∧ Frame (regsUpTo x) s t) ∧
    (4095 < s.base + x.val → exec (.loadRegs x) s = .fault (.outOfBounds (max s.base 4096)))

/-- "`Fx55` followed by `Fx65` with the same `x` and `I` restores `V0..Vx`", whatever the registers and `PC` hold in
between (R144, R145; decision D20). -/
def Obligations.LoadAfterStoreRestoresRegisters : Prop :=
  ∀ (x : RegNo) (s t : State) (v : Vector Byte 16) (p : Word), exec (.storeRegs x) s = .next t →
    ∃ u, exec (.loadRegs x) { t with v := v, pc := p } = .next u ∧ ∀ k : RegNo, k ≤ x → u.reg k = s.reg k

/-! ## Display -/

/-- `00E0`: every pixel off, `VF` and everything else kept (R150; hint bits: the spec's decision D26). -/
def Obligations.ClearScreen : Prop :=
  ∀ s : State, ∃ t, exec .cls s = .next t ∧ (∀ r c, Display.pixel t.disp r c = false) ∧
    t.pc = s.pc ∧ Reports .ok false s t ∧ Frame [.display] s t

/-- `rowmask(b, X)`: bit `7 - j` of the sprite byte lights column `X + j` if there is one, and no other column is lit
(R152; that bit 7 is leftmost is the spec's decision D19). -/
def Obligations.SpriteByteColumns : Prop :=
  ∀ (b : Byte) (column : Nat) (c : Fin 64), column ≤ 63 →
    ((rowmask b column).getLsbD (63 - c.val) = true ↔
      column ≤ c.val ∧ c.val ≤ column + 7 ∧ b.getLsbD (7 - (c.val - column)) = true)

/-- `Dxyn`: from column `Vx mod 64` and row `Vy mod 32`, the `n` sprite bytes at `I` are XORed onto the rows below, what
falls beyond column 63 or row 31 is dropped, `VF` = 1 iff an on-pixel was turned off; nothing is wrapped
(R151; decisions D17 to D20, hint bits: D26). -/
def Obligations.SpriteIsXoredOntoTheDisplay : Prop :=
  ∀ (x y : RegNo) (n : Nibble) (s : State), n = 0 ∨ s.base + n.toNat ≤ 4096 →
    ∃ t, exec (.drw x y n) s = .next t ∧
      (∀ r : Fin 32, t.disp.get r =
        if (s.reg y).toNat % 32 ≤ r.val ∧ r.val < (s.reg y).toNat % 32 + n.toNat then
          s.disp.get r ^^^ rowmask (s.mem.get (s.base + (r.val - (s.reg y).toNat % 32))) ((s.reg x).toNat % 64)
        else s.disp.get r) ∧
      ((∃ r : Fin 32, ∃ c : Fin 64, Display.pixel s.disp r c = true ∧ Display.pixel t.disp r c = false) →
        t.reg vf = 0x01) ∧
      ((¬∃ r : Fin 32, ∃ c : Fin 64, Display.pixel s.disp r c = true ∧ Display.pixel t.disp r c = false) →
        t.reg vf = 0x00) ∧
      t.pc = s.pc ∧ Reports .ok false s t ∧ Frame [.display, .reg vf] s t

/-- Drawing the same sprite twice at the same place restores the display (R151 c). -/
def Obligations.DrawingTwiceRestoresTheDisplay : Prop :=
  ∀ (x y : RegNo) (n : Nibble) (s t : State), x ≠ vf → y ≠ vf → exec (.drw x y n) s = .next t →
    ∃ u, exec (.drw x y n) t = .next u ∧ u.disp = s.disp ∧
      (t.disp ≠ s.disp → (∀ r, s.disp.get r = 0) → u.reg vf = 0x01)

/-! ## Keypad and timers -/

/-- `Fx0A`: with a key event its code goes to `Vx`; without one `PC` goes back to the instruction, nothing else changes
and `WaitingForKey` is reported (R163, the spec's decision D13; hint bits: D26). The key event is that of the
STEP event under way (R8, the spec's decision D3; log entry 1). -/
def Obligations.WaitForKey : Prop :=
  ∀ (x : RegNo) (s : State),
    (∀ inp rest, s.pending = .step inp :: rest → s.inputs = inp) ∧
    (∀ k, s.inputs.keyEvent = some k → ∃ t, exec (.ldVxK x) s = .next t ∧ (t.reg x).toNat = k.toNat ∧
      t.pc = s.pc ∧ Reports .ok false s t ∧ Frame [.reg x] s t) ∧
    (s.inputs.keyEvent = none → ∃ t, exec (.ldVxK x) s = .next t ∧ t.pc = s.pc - 2 ∧
      Reports .waitingForKey false s t ∧ Frame [] s t)

/-- `Fx07`: `Vx := DT`, which keeps its value. `Fx15` sets the delay timer and `Fx18` the sound timer, each leaving the
other; outcome `Ok` (R162, R164, R165). -/
def Obligations.TimerInstructions : Prop :=
  ∀ (x : RegNo) (s : State),
    (∃ t, exec (.ldVxDT x) s = .next t ∧ t.reg x = s.dt ∧ t.pc = s.pc ∧ t.report.outcome = .ok ∧
      Frame [.reg x] s t) ∧
    (∃ t, exec (.ldDTVx x) s = .next t ∧ t.dt = s.reg x ∧ t.pc = s.pc ∧ t.report.outcome = .ok ∧
      Frame [.delay] s t) ∧
    (∃ t, exec (.ldSTVx x) s = .next t ∧ t.st = s.reg x ∧ t.pc = s.pc ∧ t.report.outcome = .ok ∧
      Frame [.sound] s t)

/-! ## What a run may hold -/

/-- A run holds STEPs and TICKs only: with a RESET or a LOAD next it is refused before that event happens, whatever
the event would have done, and with a schedule of STEPs and TICKs it is never refused and ends only by a `Halt`
or by one of the three errors of an instruction (R250, the spec's decisions D11, D25, D33 and its U13). -/
def Obligations.RunsHoldNoResetAndNoLoad : Prop :=
  ∀ (n : Nat) (s : State),
    (∀ rest, s.pending = .reset :: rest → runFor (n + 1) s = .outsideRun s ∧ safeFor (n + 1) s = false) ∧
    (∀ bytes base rest, s.pending = .load bytes base :: rest →
      runFor (n + 1) s = .outsideRun s ∧ safeFor (n + 1) s = false) ∧
    ((∀ e ∈ s.pending, e.inRun = true) →
      (∃ t, runFor n s = .running t) ∨ (∃ t, runFor n s = .halted t) ∨
        ∃ f t, runFor n s = .faulted f t ∧ f ≠ .programTooLarge)
end

