-- ==== Sys2Proof/Laws/Decode.lean ====
section
/-! SUPPORT. The fields of an encoded word are the operands it was packed from (spec 30_encoding R61, R62). -/

namespace Sys2Proof

/-! ## Fields of a concatenation -/

theorem field_left {a b : Nat} (u : BitVec a) (v : BitVec b) : (u ++ v).extractLsb' b a = u :=
  BitVec.extractLsb'_append_eq_left

theorem field_right {a b : Nat} (u : BitVec a) (v : BitVec b) : (u ++ v).extractLsb' 0 b = v :=
  BitVec.extractLsb'_append_eq_right

theorem field_above {a b : Nat} (u : BitVec a) (v : BitVec b) (lo len : Nat) :
    (u ++ v).extractLsb' (b + lo) len = u.extractLsb' lo len := by
  apply BitVec.eq_of_getLsbD_eq
  intro k hk
  have h : ¬b + lo + k < b := by omega
  have e : b + lo + k - b = lo + k := by omega
  simp [BitVec.getLsbD_append, hk, h, e]

/-! ## Format A -/

@[simp] theorem opField_packA (op : Nibble) (nnn : Addr12) : opField (packA op nnn) = op := field_left op nnn

@[simp] theorem nnnField_packA (op : Nibble) (nnn : Addr12) : nnnField (packA op nnn) = nnn :=
  field_right op nnn

/-! ## Format XB (and XS) -/

@[simp] theorem opField_packXB (op : Nibble) (x : RegNo) (nn : Byte) : opField (packXB op x nn) = op :=
  (field_above (op ++ (BitVec.ofFin x : Nibble)) nn 4 4).trans (field_left op _)

@[simp] theorem xField_packXB (op : Nibble) (x : RegNo) (nn : Byte) : xField (packXB op x nn) = x := by
  have h : (packXB op x nn).extractLsb' 8 4 = BitVec.ofFin x :=
    (field_above (op ++ (BitVec.ofFin x : Nibble)) nn 0 4).trans (field_right op _)
  rw [xField, h]

@[simp] theorem nnField_packXB (op : Nibble) (x : RegNo) (nn : Byte) : nnField (packXB op x nn) = nn :=
  field_right (op ++ (BitVec.ofFin x : Nibble)) nn

/-! ## Formats XY and XYN -/

@[simp] theorem opField_packXY (op : Nibble) (x y : RegNo) (low : Nibble) :
    opField (packXY op x y low) = op :=
  (field_above (op ++ (BitVec.ofFin x : Nibble) ++ (BitVec.ofFin y : Nibble)) low 8 4).trans
    ((field_above (op ++ (BitVec.ofFin x : Nibble)) (BitVec.ofFin y : Nibble) 4 4).trans (field_left op _))

@[simp] theorem xField_packXY (op : Nibble) (x y : RegNo) (low : Nibble) :
    xField (packXY op x y low) = x := by
  have h : (packXY op x y low).extractLsb' 8 4 = BitVec.ofFin x :=
    (field_above (op ++ (BitVec.ofFin x : Nibble) ++ (BitVec.ofFin y : Nibble)) low 4 4).trans
      ((field_above (op ++ (BitVec.ofFin x : Nibble)) (BitVec.ofFin y : Nibble) 0 4).trans (field_right op _))
  rw [xField, h]

@[simp] theorem yField_packXY (op : Nibble) (x y : RegNo) (low : Nibble) :
    yField (packXY op x y low) = y := by
  have h : (packXY op x y low).extractLsb' 4 4 = BitVec.ofFin y :=
    (field_above (op ++ (BitVec.ofFin x : Nibble) ++ (BitVec.ofFin y : Nibble)) low 0 4).trans (field_right _ _)
  rw [yField, h]

@[simp] theorem nField_packXY (op : Nibble) (x y : RegNo) (low : Nibble) :
    nField (packXY op x y low) = low :=
  field_right (op ++ (BitVec.ofFin x : Nibble) ++ (BitVec.ofFin y : Nibble)) low

/-! ## Bytes of a word -/

@[simp] theorem wordOfBytes_of_word (w : Word) : wordOfBytes (highByte w) (lowByte w) = w := by
  apply BitVec.eq_of_getLsbD_eq
  intro k hk
  have h : (wordOfBytes (highByte w) (lowByte w)).getLsbD k =
      if k < 8 then (lowByte w).getLsbD k else (highByte w).getLsbD (k - 8) := BitVec.getLsbD_append
  rw [h]
  by_cases hk8 : k < 8
  · simp [hk8, lowByte]
  · have h8 : k - 8 < 8 := by omega
    have e : 8 + (k - 8) = k := by omega
    simp [hk8, highByte, h8, e]

@[simp] theorem highByte_wordOfBytes (hi lo : Byte) : highByte (wordOfBytes hi lo) = hi := field_left hi lo

@[simp] theorem lowByte_wordOfBytes (hi lo : Byte) : lowByte (wordOfBytes hi lo) = lo := field_right hi lo

/-- R70: every instruction is well formed, by the types of its fields. -/
theorem Instr.wf_of_type (i : Instr) : i.wf = true := by
  have hx (x : RegNo) : x.val < 16 := x.isLt
  have h4 (n : Nibble) : n.toNat < 16 := n.isLt
  have h8 (n : Byte) : n.toNat < 256 := n.isLt
  have h12 (n : Addr12) : n.toNat < 4096 := n.isLt
  cases i <;> simp [Instr.wf, Instr.operands, RawOperands.wf, hx, h4, h8, h12]

theorem fontWf_iff (font : List Byte) : fontWf font = true ↔ font.length = 80 := decide_eq_true_iff

theorem programWf_iff (program : List Byte) : programWf program = true ↔ 0x200 + program.length ≤ 4096 :=
  decide_eq_true_iff

end Sys2Proof
end

