-- ==== Sys2Proof/Laws/State.lean ====
section
/-! SUPPORT. One lemma per field per update of State, so that no proof unfolds a record update. -/

namespace Sys2Proof.Machine

variable (s t : State) (k x : RegNo) (b : Byte) (a : Word) (w : Word) (f : Bool)

/-! ## Register writes -/

@[simp] theorem State.setReg_pc : (s.setReg k b).pc = s.pc := rfl
@[simp] theorem State.setReg_i : (s.setReg k b).i = s.i := rfl
@[simp] theorem State.setReg_stack : (s.setReg k b).stack = s.stack := rfl
@[simp] theorem State.setReg_sp : (s.setReg k b).sp = s.sp := rfl
@[simp] theorem State.setReg_dt : (s.setReg k b).dt = s.dt := rfl
@[simp] theorem State.setReg_st : (s.setReg k b).st = s.st := rfl
@[simp] theorem State.setReg_disp : (s.setReg k b).disp = s.disp := rfl
@[simp] theorem State.setReg_mem : (s.setReg k b).mem = s.mem := rfl
@[simp] theorem State.setReg_params : (s.setReg k b).params = s.params := rfl
@[simp] theorem State.setReg_pending : (s.setReg k b).pending = s.pending := rfl
@[simp] theorem State.setReg_draws : (s.setReg k b).draws = s.draws := rfl
@[simp] theorem State.setReg_report : (s.setReg k b).report = s.report := rfl

@[simp] theorem State.reg_setReg_same : (s.setReg k b).reg k = b := by
  simp [State.reg, State.setReg, Vector.get_eq_getElem]

@[simp] theorem State.reg_setReg_ne (h : x ≠ k) : (s.setReg k b).reg x = s.reg x := by
  have h' : k.val ≠ x.val := fun e => h (Fin.ext e.symm)
  simp [State.reg, State.setReg, Vector.get_eq_getElem, Vector.getElem_set_ne _ _ h']

theorem State.reg_setReg : (s.setReg k b).reg x = if x = k then b else s.reg x := by
  split
  · next h => subst h; simp
  · next h => simp [h]

/-- A register read depends on the register file alone. -/
theorem State.reg_of_v {s t : State} (h : t.v = s.v) (k : RegNo) : t.reg k = s.reg k := by
  simp [State.reg, h]

/-! ## `PC` and `I` -/

@[simp] theorem State.setPc_v : (s.setPc a).v = s.v := rfl
@[simp] theorem State.setPc_i : (s.setPc a).i = s.i := rfl
@[simp] theorem State.setPc_stack : (s.setPc a).stack = s.stack := rfl
@[simp] theorem State.setPc_sp : (s.setPc a).sp = s.sp := rfl
@[simp] theorem State.setPc_dt : (s.setPc a).dt = s.dt := rfl
@[simp] theorem State.setPc_st : (s.setPc a).st = s.st := rfl
@[simp] theorem State.setPc_disp : (s.setPc a).disp = s.disp := rfl
@[simp] theorem State.setPc_mem : (s.setPc a).mem = s.mem := rfl
@[simp] theorem State.setPc_params : (s.setPc a).params = s.params := rfl
@[simp] theorem State.setPc_pending : (s.setPc a).pending = s.pending := rfl
@[simp] theorem State.setPc_draws : (s.setPc a).draws = s.draws := rfl
@[simp] theorem State.setPc_report : (s.setPc a).report = s.report := rfl
@[simp] theorem State.setPc_pc : (s.setPc a).pc = a := rfl
@[simp] theorem State.setPc_reg : (s.setPc a).reg k = s.reg k := rfl

@[simp] theorem State.advance_v : (s.advance).v = s.v := rfl
@[simp] theorem State.advance_i : (s.advance).i = s.i := rfl
@[simp] theorem State.advance_stack : (s.advance).stack = s.stack := rfl
@[simp] theorem State.advance_sp : (s.advance).sp = s.sp := rfl
@[simp] theorem State.advance_dt : (s.advance).dt = s.dt := rfl
@[simp] theorem State.advance_st : (s.advance).st = s.st := rfl
@[simp] theorem State.advance_disp : (s.advance).disp = s.disp := rfl
@[simp] theorem State.advance_mem : (s.advance).mem = s.mem := rfl
@[simp] theorem State.advance_params : (s.advance).params = s.params := rfl
@[simp] theorem State.advance_pending : (s.advance).pending = s.pending := rfl
@[simp] theorem State.advance_draws : (s.advance).draws = s.draws := rfl
@[simp] theorem State.advance_report : (s.advance).report = s.report := rfl
@[simp] theorem State.advance_pc : s.advance.pc = s.pc + 2 := rfl
@[simp] theorem State.advance_reg : s.advance.reg k = s.reg k := rfl

@[simp] theorem State.setI_v : (s.setI a).v = s.v := rfl
@[simp] theorem State.setI_pc : (s.setI a).pc = s.pc := rfl
@[simp] theorem State.setI_stack : (s.setI a).stack = s.stack := rfl
@[simp] theorem State.setI_sp : (s.setI a).sp = s.sp := rfl
@[simp] theorem State.setI_dt : (s.setI a).dt = s.dt := rfl
@[simp] theorem State.setI_st : (s.setI a).st = s.st := rfl
@[simp] theorem State.setI_disp : (s.setI a).disp = s.disp := rfl
@[simp] theorem State.setI_mem : (s.setI a).mem = s.mem := rfl
@[simp] theorem State.setI_params : (s.setI a).params = s.params := rfl
@[simp] theorem State.setI_pending : (s.setI a).pending = s.pending := rfl
@[simp] theorem State.setI_draws : (s.setI a).draws = s.draws := rfl
@[simp] theorem State.setI_report : (s.setI a).report = s.report := rfl
@[simp] theorem State.setI_i : (s.setI a).i = a := rfl
@[simp] theorem State.setI_reg : (s.setI a).reg k = s.reg k := rfl

/-! ## A skip -/

@[simp] theorem State.skipIf_v : (s.skipIf f).v = s.v := by cases f <;> rfl
@[simp] theorem State.skipIf_i : (s.skipIf f).i = s.i := by cases f <;> rfl
@[simp] theorem State.skipIf_stack : (s.skipIf f).stack = s.stack := by cases f <;> rfl
@[simp] theorem State.skipIf_sp : (s.skipIf f).sp = s.sp := by cases f <;> rfl
@[simp] theorem State.skipIf_dt : (s.skipIf f).dt = s.dt := by cases f <;> rfl
@[simp] theorem State.skipIf_st : (s.skipIf f).st = s.st := by cases f <;> rfl
@[simp] theorem State.skipIf_disp : (s.skipIf f).disp = s.disp := by cases f <;> rfl
@[simp] theorem State.skipIf_mem : (s.skipIf f).mem = s.mem := by cases f <;> rfl
@[simp] theorem State.skipIf_params : (s.skipIf f).params = s.params := by cases f <;> rfl
@[simp] theorem State.skipIf_pending : (s.skipIf f).pending = s.pending := by cases f <;> rfl
@[simp] theorem State.skipIf_draws : (s.skipIf f).draws = s.draws := by cases f <;> rfl
@[simp] theorem State.skipIf_report : (s.skipIf f).report = s.report := by cases f <;> rfl
@[simp] theorem State.skipIf_reg : (s.skipIf f).reg k = s.reg k := by cases f <;> rfl
theorem State.skipIf_pc : (s.skipIf f).pc = if f then s.pc + 2 else s.pc := by cases f <;> rfl

/-! ## A result and its flag -/

@[simp] theorem State.writeWithFlag_pc : (s.writeWithFlag x b f).pc = s.pc := rfl
@[simp] theorem State.writeWithFlag_i : (s.writeWithFlag x b f).i = s.i := rfl
@[simp] theorem State.writeWithFlag_stack : (s.writeWithFlag x b f).stack = s.stack := rfl
@[simp] theorem State.writeWithFlag_sp : (s.writeWithFlag x b f).sp = s.sp := rfl
@[simp] theorem State.writeWithFlag_dt : (s.writeWithFlag x b f).dt = s.dt := rfl
@[simp] theorem State.writeWithFlag_st : (s.writeWithFlag x b f).st = s.st := rfl
@[simp] theorem State.writeWithFlag_disp : (s.writeWithFlag x b f).disp = s.disp := rfl
@[simp] theorem State.writeWithFlag_mem : (s.writeWithFlag x b f).mem = s.mem := rfl
@[simp] theorem State.writeWithFlag_params : (s.writeWithFlag x b f).params = s.params := rfl
@[simp] theorem State.writeWithFlag_pending : (s.writeWithFlag x b f).pending = s.pending := rfl
@[simp] theorem State.writeWithFlag_draws : (s.writeWithFlag x b f).draws = s.draws := rfl
@[simp] theorem State.writeWithFlag_report : (s.writeWithFlag x b f).report = s.report := rfl

@[simp] theorem State.writeWithFlag_vf : (s.writeWithFlag x b f).reg vf = flagByte f := by
  simp [State.writeWithFlag]

theorem State.writeWithFlag_result (h : x ≠ vf) : (s.writeWithFlag x b f).reg x = b := by
  simp [State.writeWithFlag, h]

theorem State.writeWithFlag_other (hx : k ≠ x) (hv : k ≠ vf) : (s.writeWithFlag x b f).reg k = s.reg k := by
  simp [State.writeWithFlag, hx, hv]

/-! ## Leaving an event -/

@[simp] theorem State.afterEvent_v : s.afterEvent.v = s.v := by unfold State.afterEvent; split <;> rfl
@[simp] theorem State.afterEvent_pc : s.afterEvent.pc = s.pc := by unfold State.afterEvent; split <;> rfl
@[simp] theorem State.afterEvent_i : s.afterEvent.i = s.i := by unfold State.afterEvent; split <;> rfl
@[simp] theorem State.afterEvent_stack : s.afterEvent.stack = s.stack := by unfold State.afterEvent; split <;> rfl
@[simp] theorem State.afterEvent_sp : s.afterEvent.sp = s.sp := by unfold State.afterEvent; split <;> rfl
@[simp] theorem State.afterEvent_dt : s.afterEvent.dt = s.dt := by unfold State.afterEvent; split <;> rfl
@[simp] theorem State.afterEvent_st : s.afterEvent.st = s.st := by unfold State.afterEvent; split <;> rfl
@[simp] theorem State.afterEvent_disp : s.afterEvent.disp = s.disp := by unfold State.afterEvent; split <;> rfl
@[simp] theorem State.afterEvent_mem : s.afterEvent.mem = s.mem := by unfold State.afterEvent; split <;> rfl
@[simp] theorem State.afterEvent_params : s.afterEvent.params = s.params := by unfold State.afterEvent; split <;> rfl
@[simp] theorem State.afterEvent_report : s.afterEvent.report = s.report := by unfold State.afterEvent; split <;> rfl
@[simp] theorem State.afterEvent_reg : s.afterEvent.reg k = s.reg k := by simp [State.reg]

/-! ## TICK and RESET -/

@[simp] theorem State.tick_v : (s.tick).v = s.v := rfl
@[simp] theorem State.tick_pc : (s.tick).pc = s.pc := rfl
@[simp] theorem State.tick_i : (s.tick).i = s.i := rfl
@[simp] theorem State.tick_stack : (s.tick).stack = s.stack := rfl
@[simp] theorem State.tick_sp : (s.tick).sp = s.sp := rfl
@[simp] theorem State.tick_disp : (s.tick).disp = s.disp := rfl
@[simp] theorem State.tick_mem : (s.tick).mem = s.mem := rfl
@[simp] theorem State.tick_params : (s.tick).params = s.params := rfl
@[simp] theorem State.tick_pending : (s.tick).pending = s.pending := rfl
@[simp] theorem State.tick_draws : (s.tick).draws = s.draws := rfl
@[simp] theorem State.tick_dt : s.tick.dt = countDown s.dt := rfl
@[simp] theorem State.tick_st : s.tick.st = countDown s.st := rfl
@[simp] theorem State.tick_report : s.tick.report = Report.okay := rfl

@[simp] theorem State.resetEvent_v : s.resetEvent.v = State.reset.v := rfl
@[simp] theorem State.resetEvent_pc : s.resetEvent.pc = State.reset.pc := rfl
@[simp] theorem State.resetEvent_i : s.resetEvent.i = State.reset.i := rfl
@[simp] theorem State.resetEvent_stack : s.resetEvent.stack = State.reset.stack := rfl
@[simp] theorem State.resetEvent_sp : s.resetEvent.sp = State.reset.sp := rfl
@[simp] theorem State.resetEvent_dt : s.resetEvent.dt = State.reset.dt := rfl
@[simp] theorem State.resetEvent_st : s.resetEvent.st = State.reset.st := rfl
@[simp] theorem State.resetEvent_disp : s.resetEvent.disp = State.reset.disp := rfl
@[simp] theorem State.resetEvent_mem : s.resetEvent.mem = State.reset.mem := rfl
@[simp] theorem State.resetEvent_params : s.resetEvent.params = s.params := rfl
@[simp] theorem State.resetEvent_pending : s.resetEvent.pending = s.pending := rfl
@[simp] theorem State.resetEvent_draws : s.resetEvent.draws = s.draws := rfl
@[simp] theorem State.resetEvent_report : s.resetEvent.report = State.reset.report := rfl

/-! ## Reads that depend on one field -/

theorem State.memRead_of_mem {s t : State} (h : t.mem = s.mem) (n : Nat) : t.memRead n = s.memRead n := by
  simp [State.memRead, h]

theorem State.fetchWord_congr {s t : State} (hm : t.mem = s.mem) (hp : t.pc = s.pc) :
    t.fetchWord = s.fetchWord := by
  simp [State.fetchWord, State.memRead, hm, hp]

theorem State.inputs_congr {s t : State} (hp : t.pending = s.pending) (hd : t.draws = s.draws) :
    t.inputs = s.inputs := by
  simp [State.inputs, hp, hd]

theorem State.inputs_step (i : Inputs) (rest : List Event) (h : s.pending = .step i :: rest) :
    s.inputs = i := by
  simp [State.inputs, h]

end Sys2Proof.Machine
end

