-- ==== Sys2Proof/Laws/Memory.lean ====
section
/-! SUPPORT. The laws of memory: read after write, and that every operation keeps the canonical form. -/

namespace Sys2Proof.Machine

/-! ## Reading after writing -/

theorem Memory.get_filter_ne (m : Memory) (a b : Nat) :
    Memory.get (m.filter fun c => c.1 != a) b = if b = a then 0x00 else m.get b := by
  induction m with
  | nil => simp [Memory.get]
  | cons c rest ih =>
    obtain ⟨d, w⟩ := c
    by_cases hd : d = a <;> by_cases hb : b = a <;> simp_all [Memory.get]
    · intro h; exact absurd h.symm hb

theorem Memory.get_insert_same (m : Memory) (a : Nat) (w : Byte) (h : ∀ c ∈ m, c.1 ≠ a) :
    Memory.get (Memory.insert a w m) a = w := by
  induction m with
  | nil => simp [Memory.insert, Memory.get]
  | cons c rest ih =>
    obtain ⟨d, u⟩ := c
    have hd : d ≠ a := h (d, u) (by simp)
    have ih' := ih fun c hc => h c (by simp [hc])
    by_cases ha : a < d <;> simp [Memory.insert, ha, Memory.get, hd, ih']

theorem Memory.get_insert_ne (m : Memory) (a b : Nat) (w : Byte) (h : b ≠ a) :
    Memory.get (Memory.insert a w m) b = m.get b := by
  induction m with
  | nil => simp [Memory.insert, Memory.get, Ne.symm h]
  | cons c rest ih =>
    obtain ⟨d, u⟩ := c
    by_cases ha : a < d <;> simp [Memory.insert, ha, Memory.get, Ne.symm h, ih]

/-- The one law of a write, for every list, in canonical form or not. -/
theorem Memory.get_set (m : Memory) (a b : Nat) (w : Byte) :
    (m.set a w).get b = if b = a then w else m.get b := by
  unfold Memory.set
  by_cases hw : w = 0x00
  · simp only [hw, if_true]
    exact Memory.get_filter_ne m a b
  · simp only [hw, if_false]
    by_cases hb : b = a
    · subst hb
      simp only [if_true]
      exact Memory.get_insert_same _ _ _ fun c hc => by simpa using (List.mem_filter.1 hc).2
    · rw [Memory.get_insert_ne _ _ _ _ hb, Memory.get_filter_ne, if_neg hb, if_neg hb]

@[simp] theorem Memory.get_set_same (m : Memory) (a : Nat) (w : Byte) : (m.set a w).get a = w := by
  simp [Memory.get_set]

theorem Memory.get_set_ne (m : Memory) (a b : Nat) (w : Byte) (h : b ≠ a) : (m.set a w).get b = m.get b := by
  simp [Memory.get_set, h]

/-- What a write of several bytes leaves, at every address. -/
theorem Memory.get_setMany (bytes : List Byte) : ∀ (m : Memory) (base b : Nat),
    (m.setMany base bytes).get b =
      if h : base ≤ b ∧ b - base < bytes.length then bytes[b - base]'h.2 else m.get b := by
  induction bytes with
  | nil => intro m base b; simp [Memory.setMany]
  | cons w ws ih =>
    intro m base b
    rw [Memory.setMany, ih]
    by_cases h1 : base + 1 ≤ b ∧ b - (base + 1) < ws.length
    · have h2 : base ≤ b ∧ b - base < (w :: ws).length := by
        simp only [List.length_cons]; omega
      have h3 : b - base = b - (base + 1) + 1 := by omega
      simp [h1, h2, h3]
    · by_cases hb : b = base
      · subst hb
        simp
      · have h2 : ¬(base ≤ b ∧ b - base < (w :: ws).length) := by
          simp only [List.length_cons]; omega
        rw [dif_neg h1, dif_neg h2, Memory.get_set_ne _ _ _ _ hb]

theorem Memory.get_setMany_outside (m : Memory) (base b : Nat) (bytes : List Byte)
    (h : b < base ∨ base + bytes.length ≤ b) : (m.setMany base bytes).get b = m.get b := by
  rw [Memory.get_setMany, dif_neg (by omega)]

@[simp] theorem Memory.getMany_length (m : Memory) (base n : Nat) : (m.getMany base n).length = n := by
  induction n generalizing base with
  | zero => rfl
  | succ n ih => simp [Memory.getMany, ih]

theorem Memory.getMany_getElem (m : Memory) (base n k : Nat) (h : k < (m.getMany base n).length) :
    (m.getMany base n)[k] = m.get (base + k) := by
  induction n generalizing base k with
  | zero => simp [Memory.getMany] at h
  | succ n ih =>
    cases k with
    | zero => simp [Memory.getMany]
    | succ k => simp [Memory.getMany, ih, Nat.add_comm, Nat.add_left_comm]

/-! ## The canonical form -/

theorem Memory.wf_iff (m : Memory) : m.wf = true ↔
    (m.Pairwise fun c d => c.1 < d.1) ∧ ∀ c ∈ m, c.1 < 4096 ∧ c.2 ≠ 0x00 := by
  simp [Memory.wf, List.all_eq_true]

theorem Memory.wf_nil : Memory.wf [] = true := by decide

theorem Memory.mem_insert (m : Memory) (a : Nat) (w : Byte) (c : Host.Cell) :
    c ∈ Memory.insert a w m → c = (a, w) ∨ c ∈ m := by
  induction m with
  | nil => simp [Memory.insert]
  | cons d rest ih =>
    obtain ⟨b, u⟩ := d
    by_cases h : a < b
    · simp [Memory.insert, h]
    · simp only [Memory.insert, h, if_false, List.mem_cons]
      rintro (h | h)
      · exact Or.inr (Or.inl h)
      · exact (ih h).imp id Or.inr

theorem Memory.insert_pairwise (m : Memory) (a : Nat) (w : Byte) (hm : m.Pairwise fun c d => c.1 < d.1)
    (ha : ∀ c ∈ m, c.1 ≠ a) : (Memory.insert a w m).Pairwise fun c d => c.1 < d.1 := by
  induction m with
  | nil => simp [Memory.insert]
  | cons d rest ih =>
    obtain ⟨b, u⟩ := d
    obtain ⟨hb, hr⟩ := List.pairwise_cons.1 hm
    have hba : b ≠ a := ha (b, u) (by simp)
    by_cases h : a < b
    · simp only [Memory.insert, h, if_true]
      refine List.pairwise_cons.2 ⟨?_, hm⟩
      intro c hc
      rcases List.mem_cons.1 hc with rfl | hc
      · exact h
      · exact Nat.lt_trans h (hb c hc)
    · simp only [Memory.insert, h, if_false]
      refine List.pairwise_cons.2 ⟨?_, ih hr fun c hc => ha c (by simp [hc])⟩
      intro c hc
      rcases Memory.mem_insert _ _ _ _ hc with rfl | hc
      · show b < a
        omega
      · exact hb c hc

/-- A write to an address of the 4096 bytes keeps the canonical form. -/
theorem Memory.set_wf (m : Memory) (a : Nat) (w : Byte) (hm : m.wf = true) (ha : a < 4096) :
    (m.set a w).wf = true := by
  rw [Memory.wf_iff] at hm ⊢
  obtain ⟨hp, hc⟩ := hm
  have hf : (m.filter fun c => c.1 != a).Pairwise fun c d => c.1 < d.1 := hp.filter _
  have hne : ∀ c ∈ m.filter fun c => c.1 != a, c.1 ≠ a := fun c h => by simpa using (List.mem_filter.1 h).2
  unfold Memory.set
  by_cases hw : w = 0x00
  · simp only [hw, if_true]
    exact ⟨hf, fun c h => hc c (List.mem_filter.1 h).1⟩
  · simp only [hw, if_false]
    refine ⟨Memory.insert_pairwise _ _ _ hf hne, fun c h => ?_⟩
    rcases Memory.mem_insert _ _ _ _ h with rfl | h
    · exact ⟨ha, hw⟩
    · exact hc c (List.mem_filter.1 h).1

/-- A write of several bytes that fits keeps the canonical form. -/
theorem Memory.setMany_wf (bytes : List Byte) : ∀ (m : Memory) (base : Nat), m.wf = true →
    base + bytes.length ≤ 4096 → (m.setMany base bytes).wf = true := by
  induction bytes with
  | nil => intro m base hm _; exact hm
  | cons b bs ih =>
    intro m base hm hl
    simp only [List.length_cons] at hl
    exact ih _ _ (Memory.set_wf m base b hm (by omega)) (by omega)

theorem Memory.reset_wf : State.reset.mem.wf = true := by decide

/-- Canonical memories with the same bytes are the same data: a listed pair is what a read finds. -/
theorem Memory.get_of_mem (m : Memory) (hp : m.Pairwise fun c d => c.1 < d.1) (c : Host.Cell) (h : c ∈ m) :
    m.get c.1 = c.2 := by
  induction m with
  | nil => simp at h
  | cons d rest ih =>
    obtain ⟨b, u⟩ := d
    obtain ⟨hb, hr⟩ := List.pairwise_cons.1 hp
    rcases List.mem_cons.1 h with rfl | h
    · simp [Memory.get]
    · have hlt : b < c.1 := hb c h
      have hne : b ≠ c.1 := by omega
      simp [Memory.get, hne, ih hr h]

end Sys2Proof.Machine
end

