-- ==== Sys2Proof/Laws/Ops.lean ====
section
/-! SUPPORT. One lemma per shared operation: everything it can do. Later proofs cite these and do not unfold the
operations. -/

namespace Sys2Proof.Machine

/-! ## Raising and completing -/

@[simp] theorem attempt_ok {α : Type} (a : α) (k : α → Result) : attempt (.ok a) k = k a := rfl

@[simp] theorem attempt_error {α : Type} (f : Fault) (k : α → Result) : attempt (.error f) k = .fault f := rfl

theorem attempt_next {α : Type} (e : Except Fault α) (k : α → Result) (t : State) :
    attempt e k = .next t ↔ ∃ a, e = .ok a ∧ k a = .next t := by
  cases e <;> simp [attempt, raise]

theorem finish_next (o : EventOutcome) (j : Bool) (s t u : State) :
    finish o j s t = .next u ↔ u = { t with report :=
      { outcome := o, pcJumped := j, flagChanged := decide (t.reg vf ≠ s.reg vf),
        displayMutated := decide (t.disp ≠ s.disp) } } := by
  simp [finish, eq_comm]

/-- An instruction that completes differs from the state it computed in the report only. -/
theorem finish_spec (o : EventOutcome) (j : Bool) (s t : State) :
    ∃ u, finish o j s t = .next u ∧ SameCore t u ∧ u.pending = t.pending ∧ u.draws = t.draws ∧
      Reports o j s u := by
  refine ⟨_, rfl, ⟨rfl, rfl, rfl, rfl, rfl, rfl, rfl, rfl, rfl, rfl⟩, rfl, rfl, rfl, rfl, ?_, ?_⟩
  · exact decide_eq_true_iff
  · exact decide_eq_true_iff

@[simp] theorem leave_next (t : State) : leaveEvent (.next t) = .next t.afterEvent := rfl
@[simp] theorem leave_fault (f : Fault) : leaveEvent (.fault f) = .fault f := rfl
@[simp] theorem leave_refused (r : Refusal) : leaveEvent (.refused r) = .refused r := rfl

theorem leave_eq_next (r : Result) (u : State) : leaveEvent r = .next u ↔ ∃ t, r = .next t ∧ u = t.afterEvent := by
  cases r <;> simp [leaveEvent, eq_comm]

theorem leave_eq_fault (r : Result) (f : Fault) : leaveEvent r = .fault f ↔ r = .fault f := by
  cases r <;> simp [leaveEvent]

/-! ## Memory accesses -/

theorem memRead_ok (s : State) (a : Nat) (h : a ≤ 4095) : s.memRead a = .ok (s.mem.get a) := by
  simp [State.memRead, Nat.not_lt.2 h]

theorem memRead_error (s : State) (a : Nat) (h : 4095 < a) : s.memRead a = .error (.outOfBounds a) := by
  simp [State.memRead, h]

theorem fetchWord_ok (s : State) (h : s.pc.toNat ≤ 4094) : s.fetchWord = .ok s.wordAtPc := by
  simp [State.fetchWord, memRead_ok s s.pc.toNat (by omega), memRead_ok s (s.pc.toNat + 1) (by omega),
    State.wordAtPc]

theorem fetchWord_top (s : State) (h : s.pc.toNat = 4095) : s.fetchWord = .error (.outOfBounds 4096) := by
  simp [State.fetchWord, h, memRead_ok s 4095 (by omega), memRead_error s 4096 (by omega)]

theorem fetchWord_beyond (s : State) (h : 4095 < s.pc.toNat) :
    s.fetchWord = .error (.outOfBounds s.pc.toNat) := by
  simp [State.fetchWord, memRead_error s s.pc.toNat h]

theorem checkSpan_ok (base n : Nat) (h : n = 0 ∨ base + n ≤ 4096) : checkSpan base n = .ok () := by
  simp only [checkSpan]
  rw [if_neg (by omega)]

theorem checkSpan_error (base n : Nat) (hn : n ≠ 0) (h : 4096 < base + n) :
    checkSpan base n = .error (.outOfBounds (max base 4096)) := by
  simp only [checkSpan]
  rw [if_pos (by omega)]

theorem loadSpan_ok (s : State) (base n : Nat) (h : n = 0 ∨ base + n ≤ 4096) :
    s.loadSpan base n = .ok (s.mem.getMany base n) := by
  simp [State.loadSpan, checkSpan_ok base n h]

theorem loadSpan_error (s : State) (base n : Nat) (hn : n ≠ 0) (h : 4096 < base + n) :
    s.loadSpan base n = .error (.outOfBounds (max base 4096)) := by
  simp [State.loadSpan, checkSpan_error base n hn h]

theorem storeSpan_ok (s : State) (base : Nat) (bytes : List Byte)
    (h : bytes.length = 0 ∨ base + bytes.length ≤ 4096) :
    s.storeSpan base bytes = .ok { s with mem := s.mem.setMany base bytes } := by
  simp only [State.storeSpan, checkSpan_ok base bytes.length h]

theorem storeSpan_error (s : State) (base : Nat) (bytes : List Byte) (hn : bytes.length ≠ 0)
    (h : 4096 < base + bytes.length) :
    s.storeSpan base bytes = .error (.outOfBounds (max base 4096)) := by
  simp only [State.storeSpan, checkSpan_error base bytes.length hn h]

/-- A store either changes memory alone or raises. -/
theorem storeSpan_cases (s : State) (base : Nat) (bytes : List Byte) :
    s.storeSpan base bytes = .ok { s with mem := s.mem.setMany base bytes } ∨
      s.storeSpan base bytes = .error (.outOfBounds (max base 4096)) := by
  by_cases h : bytes.length = 0 ∨ base + bytes.length ≤ 4096
  · exact Or.inl (storeSpan_ok s base bytes h)
  · exact Or.inr (storeSpan_error s base bytes (by omega) (by omega))

/-- A load either answers the bytes or raises. -/
theorem loadSpan_cases (s : State) (base n : Nat) :
    s.loadSpan base n = .ok (s.mem.getMany base n) ∨
      s.loadSpan base n = .error (.outOfBounds (max base 4096)) := by
  by_cases h : n = 0 ∨ base + n ≤ 4096
  · exact Or.inl (loadSpan_ok s base n h)
  · exact Or.inr (loadSpan_error s base n (by omega) (by omega))

/-! ## The call stack -/

theorem push_ok (s : State) (w : Word) (h : s.sp.val < 16) :
    s.push w = .ok { s with stack := s.stack.set s.sp.val w h, sp := ⟨s.sp.val + 1, Nat.succ_lt_succ h⟩ } := by
  simp [State.push, h]

theorem push_error (s : State) (w : Word) (h : s.sp.val = 16) : s.push w = .error .stackOverflow := by
  simp [State.push, h]

theorem pop_ok (s : State) (k : Fin 16) (h : s.sp.val = k.val + 1) :
    s.pop = .ok (s.stack.get k, { s with sp := ⟨k.val, Nat.lt_succ_of_lt k.isLt⟩ }) := by
  have hne : s.sp.val ≠ 0 := by omega
  have hk : s.sp.val - 1 = k.val := by omega
  simp [State.pop, hne, Vector.get_eq_getElem, hk]

theorem pop_error (s : State) (h : s.sp.val = 0) : s.pop = .error .stackUnderflow := by
  simp [State.pop, h]

/-! ## Register blocks -/

theorem firstRegs_length (s : State) (n : Nat) (h : n ≤ 16) : (s.firstRegs n).length = n := by
  simp [State.firstRegs, h]

theorem firstRegs_getElem (s : State) (n k : Nat) (hk : k < (s.firstRegs n).length) (h16 : k < 16) :
    (s.firstRegs n)[k] = s.reg ⟨k, h16⟩ := by
  simp [State.firstRegs, State.reg, Vector.get_eq_getElem]

/-- What a register holds after a block of bytes is written to the registers from `base` upward. -/
theorem writeRegs_getElem (bytes : List Byte) : ∀ (v : Vector Byte 16) (base j : Nat) (hj : j < 16),
    (writeRegs v base bytes)[j] =
      if h : base ≤ j ∧ j - base < bytes.length then bytes[j - base]'h.2 else v[j] := by
  induction bytes with
  | nil => intro v base j hj; simp [writeRegs]
  | cons b bs ih =>
    intro v base j hj
    rw [writeRegs, ih]
    by_cases h1 : base + 1 ≤ j ∧ j - (base + 1) < bs.length
    · have h2 : base ≤ j ∧ j - base < (b :: bs).length := by
        simp only [List.length_cons]; omega
      have h3 : j - base = j - (base + 1) + 1 := by omega
      simp [h1, h2, h3]
    · by_cases hb : j = base
      · subst hb
        simp
      · have h2 : ¬(base ≤ j ∧ j - base < (b :: bs).length) := by
          simp only [List.length_cons]; omega
        rw [dif_neg h1, dif_neg h2, Vector.getElem_setIfInBounds_ne hj (Ne.symm hb)]

/-! ## Drawing -/

/-- One row of a sprite: what each display row holds after it. -/
theorem drawRow_display (column : Nat) (b : Byte) (row : Nat) (d : Display) (hit : Bool) (r : Fin 32) :
    (drawRow column b row d hit).1.get r = if row = r.val then d.get r ^^^ rowmask b column else d.get r := by
  unfold drawRow
  split
  · next h =>
    by_cases hr : row = r.val
    · subst hr
      simp [Vector.get_eq_getElem]
    · simp [Vector.get_eq_getElem, hr]
  · next h =>
    have hr : row ≠ r.val := by have := r.isLt; omega
    simp [hr]

/-- One row of a sprite: the collision so far. -/
theorem drawRow_hit (column : Nat) (b : Byte) (row : Nat) (d : Display) (hit : Bool) :
    (drawRow column b row d hit).2 = true ↔
      hit = true ∨ ∃ r : Fin 32, r.val = row ∧ collides (d.get r) (rowmask b column) = true := by
  unfold drawRow
  split
  · next h =>
    simp only [Bool.or_eq_true]
    refine or_congr Iff.rfl ⟨fun hc => ⟨⟨row, h⟩, rfl, hc⟩, ?_⟩
    rintro ⟨r, rfl, hc⟩
    exact hc
  · next h =>
    refine ⟨Or.inl, ?_⟩
    rintro (hc | ⟨r, rfl, -⟩)
    · exact hc
    · exact absurd r.isLt h

end Sys2Proof.Machine
end

