-- ==== Sys2Proof/Laws/Draw.lean ====
section
/-! SUPPORT. What drawing a sprite leaves on the display, in closed form (spec 44_display R151, R152). -/

namespace Sys2Proof.Machine

/-- Row `r` of the display after a sprite is drawn from row `row` downward: XORed once, with its own sprite byte. -/
theorem drawRows_display (column : Nat) (bytes : List Byte) : ∀ (row : Nat) (d : Display) (hit : Bool) (r : Fin 32),
    (drawRows column bytes row d hit).1.get r =
      if h : row ≤ r.val ∧ r.val - row < bytes.length then
        d.get r ^^^ rowmask (bytes[r.val - row]'h.2) column
      else d.get r := by
  induction bytes with
  | nil => intro row d hit r; simp [drawRows]
  | cons b bs ih =>
    intro row d hit r
    rw [drawRows, ih, drawRow_display]
    by_cases h : row = r.val
    · subst h; simp
    · by_cases h2 : row + 1 ≤ r.val ∧ r.val - (row + 1) < bs.length
      · have h3 : row ≤ r.val ∧ r.val - row < (b :: bs).length := by
          simp only [List.length_cons]; omega
        have e : r.val - row = r.val - (row + 1) + 1 := by omega
        simp [h, h2, h3, e]
      · have h3 : ¬(row ≤ r.val ∧ r.val - row < (b :: bs).length) := by
          simp only [List.length_cons]; omega
        rw [dif_neg h2, dif_neg h3, if_neg h]

/-- The collision bit after a sprite is drawn: some visible row collided with its own sprite byte. -/
theorem drawRows_hit (column : Nat) (bytes : List Byte) : ∀ (row : Nat) (d : Display) (hit : Bool),
    (drawRows column bytes row d hit).2 = true ↔
      hit = true ∨ ∃ r : Fin 32, ∃ h : row ≤ r.val ∧ r.val - row < bytes.length,
        collides (d.get r) (rowmask (bytes[r.val - row]'h.2) column) = true := by
  induction bytes with
  | nil => intro row d hit; simp [drawRows]
  | cons b bs ih =>
    intro row d hit
    rw [drawRows, ih, drawRow_hit, or_assoc]
    refine or_congr Iff.rfl ⟨?_, ?_⟩
    · rintro (⟨r, hr, hc⟩ | ⟨r, ⟨h1, h2⟩, hc⟩)
      · refine ⟨r, ⟨by omega, by simp only [List.length_cons]; omega⟩, ?_⟩
        have e : r.val - row = 0 := by omega
        simpa [e] using hc
      · refine ⟨r, ⟨by omega, by simp only [List.length_cons]; omega⟩, ?_⟩
        rw [drawRow_display, if_neg (by omega)] at hc
        have e : r.val - row = r.val - (row + 1) + 1 := by omega
        simpa [e] using hc
    · rintro ⟨r, ⟨h1, h2⟩, hc⟩
      simp only [List.length_cons] at h2
      by_cases h : row = r.val
      · have e : r.val - row = 0 := by omega
        exact Or.inl ⟨r, h.symm, by simpa [e] using hc⟩
      · refine Or.inr ⟨r, ⟨by omega, by omega⟩, ?_⟩
        rw [drawRow_display, if_neg h]
        have e : r.val - row = r.val - (row + 1) + 1 := by omega
        simpa [e] using hc

/-- A row collides with a mask exactly when some pixel of it is on before the XOR and off after it. -/
theorem collides_iff (row mask : DisplayRow) : collides row mask = true ↔
    ∃ c : Fin 64, row.getLsbD (63 - c.val) = true ∧ (row ^^^ mask).getLsbD (63 - c.val) = false := by
  simp only [collides, decide_eq_true_eq]
  constructor
  · intro h
    by_contra hn
    refine h (BitVec.eq_of_getLsbD_eq fun j hj => ?_)
    by_contra hb
    refine hn ⟨⟨63 - j, by omega⟩, ?_⟩
    have e : 63 - (63 - j) = j := by omega
    simp at hb
    simp [e, hb.1, hb.2]
  · rintro ⟨c, h1, h2⟩ h
    have h3 : (row &&& mask).getLsbD (63 - c.val) = false := by rw [h]; simp
    simp [h1] at h2 h3
    simp [h3] at h2

end Sys2Proof.Machine
end

