-- ==== Sys2Proof/Laws/Frames.lean ====
section
/-! SUPPORT. The frame of each shared operation, said once. -/

namespace Sys2Proof.Machine

variable (s t u : State) (k x : RegNo) (b : Byte) (a : Word) (f : Bool)

theorem SameCore.reg {s t : State} (h : SameCore s t) (k : RegNo) : t.reg k = s.reg k := State.reg_of_v h.1 k

theorem SameCore.memRead {s t : State} (h : SameCore s t) (n : Nat) : t.memRead n = s.memRead n :=
  State.memRead_of_mem h.2.2.2.2.2.2.2.2.1 n

theorem SameCore.refl : SameCore s s := ⟨rfl, rfl, rfl, rfl, rfl, rfl, rfl, rfl, rfl, rfl⟩

theorem SameCore.afterEvent : SameCore s s.afterEvent := by simp [SameCore]

/-- A state that agrees with `t` up to the report has `t`'s frame. -/
theorem Frame.of_sameCore {c : List Piece} {s t u : State} (h : Frame c s t) (e : SameCore t u)
    (hp : u.pending = t.pending) (hd : u.draws = t.draws) : Frame c s u := by
  obtain ⟨h1, h2, h3, h3', h4, h5, h6, h7, h8, h9, h10⟩ := h
  obtain ⟨-, -, ei, ek, es, ed, et, edi, -, epa⟩ := id e
  refine ⟨fun k hk => (e.reg k).trans (h1 k hk), fun hk => ei.trans (h2 hk),
    fun hk => ek.trans (h3 hk), fun hk => es.trans (h3' hk), fun hk => ed.trans (h4 hk), fun hk => et.trans (h5 hk),
    fun hk => edi.trans (h6 hk), fun hk n => (e.memRead n).trans (h7 hk n), epa.trans h8, hp.trans h9,
    hd.trans h10⟩

/-- An instruction that completes has the frame of the state it computed, agrees with it up to the report, and
reports its outcome. -/
theorem finish_completes {c : List Piece} (o : EventOutcome) (j : Bool) {s t : State} (h : Frame c s t) :
    ∃ u, finish o j s t = .next u ∧ SameCore t u ∧ Reports o j s u ∧ Frame c s u := by
  obtain ⟨u, hu, e, hp, hd, hr⟩ := finish_spec o j s t
  exact ⟨u, hu, e, hr, h.of_sameCore e hp hd⟩

theorem frame_self (c : List Piece) : Frame c s s :=
  ⟨fun _ _ => rfl, fun _ => rfl, fun _ => rfl, fun _ => rfl, fun _ => rfl, fun _ => rfl, fun _ => rfl, fun _ _ => rfl,
    rfl, rfl, rfl⟩

theorem frame_setReg : Frame [.reg x] s (s.setReg x b) :=
  ⟨fun k hk => State.reg_setReg_ne s x k b (by simpa using hk), fun _ => rfl, fun _ => rfl, fun _ => rfl, fun _ => rfl,
    fun _ => rfl, fun _ => rfl, fun _ _ => rfl, rfl, rfl, rfl⟩

theorem frame_writeWithFlag : Frame [.reg x, .reg vf] s (s.writeWithFlag x b f) := by
  refine ⟨fun k hk => ?_, fun _ => rfl, fun _ => rfl, fun _ => rfl, fun _ => rfl, fun _ => rfl, fun _ => rfl,
    fun _ _ => rfl, rfl, rfl, rfl⟩
  have hk' : k ≠ x ∧ k ≠ vf := by simpa using hk
  exact State.writeWithFlag_other s k x b f hk'.1 hk'.2

theorem frame_setPc : Frame [] s (s.setPc a) :=
  ⟨fun _ _ => rfl, fun _ => rfl, fun _ => rfl, fun _ => rfl, fun _ => rfl, fun _ => rfl, fun _ => rfl, fun _ _ => rfl,
    rfl, rfl, rfl⟩

theorem frame_skipIf : Frame [] s (s.skipIf f) := by
  cases f
  · exact frame_self s []
  · exact frame_setPc s _

theorem frame_setI : Frame [.index] s (s.setI a) :=
  ⟨fun _ _ => rfl, fun h => absurd (by simp) h, fun _ => rfl, fun _ => rfl, fun _ => rfl, fun _ => rfl, fun _ => rfl,
    fun _ _ => rfl, rfl, rfl, rfl⟩

theorem frame_mem (m : Memory) : Frame [.memory] s { s with mem := m } :=
  ⟨fun _ _ => rfl, fun _ => rfl, fun _ => rfl, fun _ => rfl, fun _ => rfl, fun _ => rfl, fun _ => rfl,
    fun h => absurd (by simp) h, rfl, rfl, rfl⟩

/-- What a store of several bytes leaves of memory. -/
theorem sameOutside_setMany (base : Nat) (bytes : List Byte) :
    SameOutside base bytes.length s { s with mem := s.mem.setMany base bytes } := by
  intro n hn
  simp only [State.memRead, Memory.get_setMany_outside s.mem base n bytes hn]

theorem memRead_setMany (base : Nat) (bytes : List Byte) (n : Nat) (h : n < bytes.length)
    (hb : base + bytes.length ≤ 4096) :
    ({ s with mem := s.mem.setMany base bytes } : State).memRead (base + n) = .ok bytes[n] := by
  rw [memRead_ok _ _ (by omega)]
  simp [Memory.get_setMany, h]

end Sys2Proof.Machine
end

