-- ==== Sys2Proof/Laws/PerInstr.lean ====
section
/-! SUPPORT. Statements about every instruction, one lemma per constructor. -/

namespace Sys2Proof

/-- A mask of whole fields acts field by field. -/
theorem and_fields {a b : Nat} (u u' : BitVec a) (v v' : BitVec b) :
    (u ++ v) &&& (u' ++ v') = (u &&& u') ++ (v &&& v') := BitVec.and_append

theorem and_none {a : Nat} (u : BitVec a) : u &&& 0 = 0 := BitVec.and_zero

theorem and_nibble (u : Nibble) : u &&& 0xF = u := BitVec.and_allOnes

theorem and_byte (u : Byte) : u &&& 0xFF = u := BitVec.and_allOnes

theorem packA_mask (op : Nibble) (nnn : Addr12) : packA op nnn &&& 0xF000 = packA op 0 := by
  have h : (0xF000 : Word) = packA 0xF 0 := by decide
  rw [h]
  have e : packA op nnn &&& packA 0xF 0 = packA (op &&& 0xF) (nnn &&& 0) := and_fields op 0xF nnn 0
  rw [e, and_none]
  rw [and_nibble]

theorem packXB_mask_op (op : Nibble) (x : RegNo) (nn : Byte) : packXB op x nn &&& 0xF000 = packXB op 0 0 := by
  have h : (0xF000 : Word) = packXB 0xF 0 0 := by decide
  rw [h]
  have e : packXB op x nn &&& packXB 0xF 0 0 =
      ((op ++ (BitVec.ofFin x : Nibble)) &&& ((0xF : Nibble) ++ (0 : Nibble))) ++ (nn &&& 0) :=
    and_fields _ _ _ _
  rw [e, and_fields, and_none, and_none]
  rw [and_nibble]
  rfl

theorem packXB_mask_opnn (op : Nibble) (x : RegNo) (nn : Byte) :
    packXB op x nn &&& 0xF0FF = packXB op 0 nn := by
  have h : (0xF0FF : Word) = packXB 0xF 0 0xFF := by decide
  rw [h]
  have e : packXB op x nn &&& packXB 0xF 0 0xFF =
      ((op ++ (BitVec.ofFin x : Nibble)) &&& ((0xF : Nibble) ++ (0 : Nibble))) ++ (nn &&& 0xFF) :=
    and_fields _ _ _ _
  rw [e, and_fields, and_none]
  simp only [and_nibble, and_byte]
  rfl

theorem packXY_mask (op : Nibble) (x y : RegNo) (low : Nibble) :
    packXY op x y low &&& 0xF00F = packXY op 0 0 low := by
  have h : (0xF00F : Word) = packXY 0xF 0 0 0xF := by decide
  rw [h]
  have e : packXY op x y low &&& packXY 0xF 0 0 0xF =
      ((op ++ (BitVec.ofFin x : Nibble) ++ (BitVec.ofFin y : Nibble)) &&&
        ((0xF : Nibble) ++ (0 : Nibble) ++ (0 : Nibble))) ++ (low &&& 0xF) :=
    and_fields _ _ _ _
  rw [e, and_fields, and_fields, and_none, and_none]
  simp only [and_nibble]
  rfl

theorem packXY_mask_op (op : Nibble) (x y : RegNo) (low : Nibble) :
    packXY op x y low &&& 0xF000 = packXY op 0 0 0 := by
  have h : (0xF000 : Word) = packXY 0xF 0 0 0 := by decide
  rw [h]
  have e : packXY op x y low &&& packXY 0xF 0 0 0 =
      ((op ++ (BitVec.ofFin x : Nibble) ++ (BitVec.ofFin y : Nibble)) &&&
        ((0xF : Nibble) ++ (0 : Nibble) ++ (0 : Nibble))) ++ (low &&& 0) :=
    and_fields _ _ _ _
  rw [e, and_fields, and_fields, and_none, and_none, and_none]
  rw [and_nibble]
  rfl

end Sys2Proof

namespace Sys2Proof.Laws.EncodeRow

/-- The word of an instruction matches its row of the opcode map (R65). -/
def Statement (i : Instr) : Prop := i.row.isMatch (encode i) = true

theorem of_mask {i : Instr} {w : Word} (h : encode i &&& i.row.mask = w) (hw : w = i.row.pattern) :
    Statement i := by
  simp [Statement, OpcodeRow.isMatch, h, hw]

theorem halt : Statement .halt := by unfold Statement; decide
theorem cls : Statement .cls := by unfold Statement; decide
theorem ret : Statement .ret := by unfold Statement; decide
theorem jp (nnn : Addr12) : Statement (.jp nnn) := of_mask (packA_mask _ _) rfl
theorem call (nnn : Addr12) : Statement (.call nnn) := of_mask (packA_mask _ _) rfl
theorem seImm (x : RegNo) (nn : Byte) : Statement (.seImm x nn) := of_mask (packXB_mask_op _ _ _) rfl
theorem sneImm (x : RegNo) (nn : Byte) : Statement (.sneImm x nn) := of_mask (packXB_mask_op _ _ _) rfl
theorem seReg (x : RegNo) (y : RegNo) : Statement (.seReg x y) := of_mask (packXY_mask _ _ _ _) rfl
theorem ldImm (x : RegNo) (nn : Byte) : Statement (.ldImm x nn) := of_mask (packXB_mask_op _ _ _) rfl
theorem addImm (x : RegNo) (nn : Byte) : Statement (.addImm x nn) := of_mask (packXB_mask_op _ _ _) rfl
theorem ldReg (x : RegNo) (y : RegNo) : Statement (.ldReg x y) := of_mask (packXY_mask _ _ _ _) rfl
theorem orReg (x : RegNo) (y : RegNo) : Statement (.orReg x y) := of_mask (packXY_mask _ _ _ _) rfl
theorem andReg (x : RegNo) (y : RegNo) : Statement (.andReg x y) := of_mask (packXY_mask _ _ _ _) rfl
theorem xorReg (x : RegNo) (y : RegNo) : Statement (.xorReg x y) := of_mask (packXY_mask _ _ _ _) rfl
theorem addReg (x : RegNo) (y : RegNo) : Statement (.addReg x y) := of_mask (packXY_mask _ _ _ _) rfl
theorem subReg (x : RegNo) (y : RegNo) : Statement (.subReg x y) := of_mask (packXY_mask _ _ _ _) rfl
theorem shr (x : RegNo) (y : RegNo) : Statement (.shr x y) := of_mask (packXY_mask _ _ _ _) rfl
theorem subn (x : RegNo) (y : RegNo) : Statement (.subn x y) := of_mask (packXY_mask _ _ _ _) rfl
theorem shl (x : RegNo) (y : RegNo) : Statement (.shl x y) := of_mask (packXY_mask _ _ _ _) rfl
theorem sneReg (x : RegNo) (y : RegNo) : Statement (.sneReg x y) := of_mask (packXY_mask _ _ _ _) rfl
theorem ldI (nnn : Addr12) : Statement (.ldI nnn) := of_mask (packA_mask _ _) rfl
theorem jpV0 (nnn : Addr12) : Statement (.jpV0 nnn) := of_mask (packA_mask _ _) rfl
theorem rnd (x : RegNo) (nn : Byte) : Statement (.rnd x nn) := of_mask (packXB_mask_op _ _ _) rfl
theorem drw (x : RegNo) (y : RegNo) (n : Nibble) : Statement (.drw x y n) := of_mask (packXY_mask_op _ _ _ _) rfl
theorem skp (x : RegNo) : Statement (.skp x) := of_mask (packXB_mask_opnn _ _ _) rfl
theorem sknp (x : RegNo) : Statement (.sknp x) := of_mask (packXB_mask_opnn _ _ _) rfl
theorem ldVxDT (x : RegNo) : Statement (.ldVxDT x) := of_mask (packXB_mask_opnn _ _ _) rfl
theorem ldVxK (x : RegNo) : Statement (.ldVxK x) := of_mask (packXB_mask_opnn _ _ _) rfl
theorem ldDTVx (x : RegNo) : Statement (.ldDTVx x) := of_mask (packXB_mask_opnn _ _ _) rfl
theorem ldSTVx (x : RegNo) : Statement (.ldSTVx x) := of_mask (packXB_mask_opnn _ _ _) rfl
theorem addI (x : RegNo) : Statement (.addI x) := of_mask (packXB_mask_opnn _ _ _) rfl
theorem ldF (x : RegNo) : Statement (.ldF x) := of_mask (packXB_mask_opnn _ _ _) rfl
theorem ldB (x : RegNo) : Statement (.ldB x) := of_mask (packXB_mask_opnn _ _ _) rfl
theorem storeRegs (x : RegNo) : Statement (.storeRegs x) := of_mask (packXB_mask_opnn _ _ _) rfl
theorem loadRegs (x : RegNo) : Statement (.loadRegs x) := of_mask (packXB_mask_opnn _ _ _) rfl

end Sys2Proof.Laws.EncodeRow
end

