-- ==== Sys2Proof/Laws/Runs.lean ====
section
/-! SUPPORT. The inputs of a STEP, and one event of a run: the equations that proofs about runs cite (spec 00_scope R8,
70_reset R250). -/

namespace Sys2Proof.Machine

/-! ## The inputs of the event under way -/

/-- The inputs are those the STEP event under way carries (R8). -/
theorem inputs_of_step {s : State} {inp : Inputs} {rest : List Event} (h : s.pending = .step inp :: rest) :
    s.inputs = inp := by
  simp [State.inputs, h]

/-! ## What may come next in a run -/

theorem nextInRun_of_nil {s : State} (h : s.pending = []) : s.nextInRun = true := by
  simp [State.nextInRun, h]

theorem nextInRun_of_cons {s : State} {e : Event} {rest : List Event} (h : s.pending = e :: rest) :
    s.nextInRun = e.inRun := by
  simp [State.nextInRun, h]

/-! ## One event of a run -/

variable {n : Nat} {s t : State} {f : Fault}

theorem runFor_outside (h : s.nextInRun = false) : runFor (n + 1) s = .outsideRun s := by
  simp [runFor, h]

theorem runFor_next (h : s.nextInRun = true) (hs : step s = .next t) (ht : t.report.outcome ≠ .halt) :
    runFor (n + 1) s = runFor n t := by
  simp [runFor, h, hs, ht]

theorem runFor_halt (h : s.nextInRun = true) (hs : step s = .next t) (ht : t.report.outcome = .halt) :
    runFor (n + 1) s = .halted t := by
  simp [runFor, h, hs, ht]

theorem runFor_fault (h : s.nextInRun = true) (hs : step s = .fault f) : runFor (n + 1) s = .faulted f s := by
  simp [runFor, h, hs]

theorem deliver_next (hs : step s = .next t) : deliver (n + 1) s = deliver n t := by
  simp [deliver, hs]

/-- What the first event of a safe run is, and what is left of it. -/
theorem safeFor_succ : safeFor (n + 1) s = true ↔ s.nextInRun = true ∧
    ∃ t, step s = .next t ∧ t.report.isUnsafe = false ∧ (t.report.outcome = .halt ∨ safeFor n t = true) := by
  rw [safeFor, Bool.and_eq_true]
  refine and_congr Iff.rfl ?_
  cases step s <;> simp

end Sys2Proof.Machine
end

