-- ==== Sys2Proof/Tests/Slice0.lean ====
section
/-! SUPPORT. Tests. Expected values are the spec's (30_encoding R65; the vectors of 95_test_vectors, named in the
comments), or worked out by hand from its rules; then witnesses for the hypotheses of the statements. -/

namespace Sys2Proof.Tests

open Sys2Proof.Machine

/-! ## WellFormed: each check refuses an ill-formed term -/

theorem test_wf_accepts_largest_operands : (RawOperands.mk 15 15 15 255 4095).wf = true := by decide
theorem test_wf_refuses_register_x_16 : (RawOperands.mk 16 0 0 0 0).wf = false := by decide
theorem test_wf_refuses_register_y_16 : (RawOperands.mk 0 16 0 0 0).wf = false := by decide
theorem test_wf_refuses_row_count_16 : (RawOperands.mk 0 0 16 0 0).wf = false := by decide
theorem test_wf_refuses_immediate_256 : (RawOperands.mk 0 0 0 256 0).wf = false := by decide
theorem test_wf_refuses_address_4096 : (RawOperands.mk 0 0 0 0 4096).wf = false := by decide
theorem test_wf_accepts_default_font : fontWf Config.defaultFont = true := by decide
theorem test_wf_refuses_font_of_79_bytes : fontWf (Config.defaultFont.drop 1) = false := by decide
theorem test_wf_accepts_program_of_3584_bytes : programWf (List.replicate 3584 0x00) = true := by
  unfold programWf; rw [List.length_replicate]; decide
theorem test_wf_refuses_program_of_3585_bytes : programWf (List.replicate 3585 0x00) = false := by
  unfold programWf; rw [List.length_replicate]; decide

/-! ## Decoding: words written out from the opcode map (R62, R65) -/

theorem test_decode_flow :
    decodeWord 0x0000 = .ok .halt ∧ decodeWord 0x00EE = .ok .ret ∧ decodeWord 0x1ABC = .ok (.jp 0xABC) ∧
    decodeWord 0x2ABC = .ok (.call 0xABC) ∧ decodeWord 0xBABC = .ok (.jpV0 0xABC) := by decide

theorem test_decode_skips :
    decodeWord 0x3A5C = .ok (.seImm 10 0x5C) ∧ decodeWord 0x4A5C = .ok (.sneImm 10 0x5C) ∧
    decodeWord 0x5AB0 = .ok (.seReg 10 11) ∧ decodeWord 0x9AB0 = .ok (.sneReg 10 11) := by decide

theorem test_decode_alu :
    decodeWord 0x6A5C = .ok (.ldImm 10 0x5C) ∧ decodeWord 0x7A5C = .ok (.addImm 10 0x5C) ∧
    decodeWord 0x8AB0 = .ok (.ldReg 10 11) ∧ decodeWord 0x8AB1 = .ok (.orReg 10 11) ∧
    decodeWord 0x8AB2 = .ok (.andReg 10 11) ∧ decodeWord 0x8AB3 = .ok (.xorReg 10 11) ∧
    decodeWord 0x8AB4 = .ok (.addReg 10 11) ∧ decodeWord 0x8AB5 = .ok (.subReg 10 11) ∧
    decodeWord 0x8AB6 = .ok (.shr 10 11) ∧ decodeWord 0x8AB7 = .ok (.subn 10 11) ∧
    decodeWord 0x8ABE = .ok (.shl 10 11) ∧ decodeWord 0xCA5C = .ok (.rnd 10 0x5C) := by decide

theorem test_decode_index :
    decodeWord 0xAABC = .ok (.ldI 0xABC) ∧ decodeWord 0xFA1E = .ok (.addI 10) ∧ decodeWord 0xFA29 = .ok (.ldF 10) ∧
    decodeWord 0xFA33 = .ok (.ldB 10) ∧ decodeWord 0xFA55 = .ok (.storeRegs 10) ∧
    decodeWord 0xFA65 = .ok (.loadRegs 10) := by decide

theorem test_decode_display :
    decodeWord 0x00E0 = .ok .cls ∧ decodeWord 0xDABC = .ok (.drw 10 11 12) := by decide

theorem test_decode_key_and_timer :
    decodeWord 0xEA9E = .ok (.skp 10) ∧ decodeWord 0xEAA1 = .ok (.sknp 10) ∧ decodeWord 0xFA07 = .ok (.ldVxDT 10) ∧
    decodeWord 0xFA0A = .ok (.ldVxK 10) ∧ decodeWord 0xFA15 = .ok (.ldDTVx 10) ∧
    decodeWord 0xFA18 = .ok (.ldSTVx 10) := by decide

/-- F17 to F22: words of each unknown class of R66. -/
theorem test_decode_unknown :
    decodeWord 0x0123 = .error (.unknownOpcode 0x0123) ∧ decodeWord 0x5AB1 = .error (.unknownOpcode 0x5AB1) ∧
    decodeWord 0x8128 = .error (.unknownOpcode 0x8128) ∧ decodeWord 0x9AB1 = .error (.unknownOpcode 0x9AB1) ∧
    decodeWord 0xE09F = .error (.unknownOpcode 0xE09F) ∧ decodeWord 0xF075 = .error (.unknownOpcode 0xF075) := by
  decide

/-- The two bytes in memory order, and a byte string too short. -/
theorem test_decode_bytes :
    decode [0x60, 0x05, 0x12] = .ok (.ldImm 0 5, [0x12]) ∧ decode [0x60] = .error .truncated ∧
    decodeTableWord 16 0xD125 = some (.drw 1 2 5) := by decide

/-- No word matches two rows of the opcode map. -/
theorem test_rows_do_not_overlap :
    opcodeRows.Pairwise (fun r q => q.pattern &&& r.mask ≠ r.pattern ∧ r.pattern &&& q.mask ≠ q.pattern) := by decide

/-! ## One step -/

/-- The start state of the vectors: reset, the word at 0x200, one STEP with these inputs queued. -/
def start (w : Word) (inputs : Inputs := ⟨0, none, 0⟩) : State :=
  { State.reset.placeWord w with pending := [.step inputs] }

/-- The step answers a next state of which `p` holds. -/
def gives (s : State) (p : State → Bool) : Bool :=
  match step s with
  | .next t => p t
  | .fault _ => false
  | .refused _ => false

/-- One word of the display. -/
def row (s : State) (r : Fin 32) : DisplayRow := s.disp.get r

def withRow (s : State) (r : Fin 32) (w : DisplayRow) : State := { s with disp := s.disp.set r.val w r.isLt }

def withBytes (s : State) (base : Nat) (bytes : List Byte) : State := { s with mem := s.mem.setMany base bytes }

def withParam (s : State) : State := { s with params := ⟨true⟩ }

def withStack (s : State) (sp : Fin 17) (k : Fin 16) (w : Word) : State :=
  { s with sp := sp, stack := s.stack.set k.val w k.isLt }

/-! ### Control transfer, halt, unknown (F, S5) -/

theorem test_ret_keeps_the_dead_entry : gives (withStack (start 0x00EE) 1 0 0x0202)
    (fun t => t.pc == 0x0202 && t.sp == 0 && t.stack.get 0 == 0x0202) = true := by decide
theorem test_ret_from_a_full_stack : gives (withStack (start 0x00EE) 16 15 0x0ABC)
    (fun t => t.pc == 0x0ABC && t.sp == 15) = true := by decide
theorem test_jp_odd_target : gives (start 0x1301) (fun t => t.pc == 0x0301 && t.report.pcJumped) = true := by decide
theorem test_call_pushes_next_address : gives (start 0x2300)
    (fun t => t.pc == 0x0300 && t.sp == 1 && t.stack.get 0 == 0x0202) = true := by decide
theorem test_call_overflow : step { start 0x2300 with sp := 16 } = .fault .stackOverflow := rfl
theorem test_jpV0_is_not_reduced : gives ((start 0xBFFF).setReg 0 0xFF) (fun t => t.pc == 0x10FE) = true := by decide
theorem test_jpV0_uses_V0 : gives ((start 0xB200).setReg 2 0x55) (fun t => t.pc == 0x0200) = true := by decide
theorem test_halt : gives (start 0x0000)
    (fun t => t.pc == 0x0202 && t.report.outcome == .halt) = true := by decide
theorem test_unknown : gives (start 0x5AB1)
    (fun t => t.pc == 0x0202 && t.report.outcome == .unknownOpcode 0x5AB1) = true := by decide
theorem test_fetch_at_4095 : step { start 0x6005 with pc := 0x0FFF } = .fault (.outOfBounds 4096) := rfl

/-! ### Skips (K, F28) -/

theorem test_seImm_taken : gives ((start 0x332A).setReg 3 0x2A)
    (fun t => t.pc == 0x0204 && !t.report.pcJumped) = true := by decide
theorem test_seImm_at_the_top : gives { start 0x0000 with
    pc := 0x0FFE, mem := Memory.setMany [] 0xFFE [0x30, 0x00] } (fun t => t.pc == 0x1002) = true := by decide
theorem test_sneImm_not_taken : gives ((start 0x432A).setReg 3 0x2A) (fun t => t.pc == 0x0202) = true := by decide
theorem test_seReg_taken : gives (((start 0x5120).setReg 1 7).setReg 2 7) (fun t => t.pc == 0x0204) = true := by decide
theorem test_seReg_not_taken : gives (((start 0x5120).setReg 1 7).setReg 2 8)
    (fun t => t.pc == 0x0202) = true := by decide
theorem test_sneReg_taken : gives (((start 0x9120).setReg 1 7).setReg 2 8)
    (fun t => t.pc == 0x0204) = true := by decide

/-! ### Load, arithmetic, logic, random (A, S2 to S4) -/

theorem test_ldImm : gives (start 0x6FAB) (fun t => t.reg vf == 0xAB && t.pc == 0x0202) = true := by decide
theorem test_addImm_wraps_without_flag : gives (((start 0x7220).setReg 2 0xF0).setReg vf 0x77)
    (fun t => t.reg 2 == 0x10 && t.reg vf == 0x77) = true := by decide
theorem test_ldReg : gives (((start 0x8120).setReg 1 0x11).setReg 2 0x22)
    (fun t => t.reg 1 == 0x22 && t.reg 2 == 0x22) = true := by decide
theorem test_or_keeps_vf : gives ((((start 0x8121).setReg 1 0xCC).setReg 2 0xAA).setReg vf 0x5A)
    (fun t => t.reg 1 == 0xEE && t.reg vf == 0x5A) = true := by decide
theorem test_and_keeps_vf : gives ((((start 0x8122).setReg 1 0xCC).setReg 2 0xAA).setReg vf 0x5A)
    (fun t => t.reg 1 == 0x88 && t.reg vf == 0x5A) = true := by decide
theorem test_xor_keeps_vf : gives ((((start 0x8123).setReg 1 0xCC).setReg 2 0xAA).setReg vf 0x5A)
    (fun t => t.reg 1 == 0x66 && t.reg vf == 0x5A) = true := by decide
theorem test_add_carries : gives (((start 0x8124).setReg 1 0xFF).setReg 2 0x01)
    (fun t => t.reg 1 == 0x00 && t.reg vf == 0x01) = true := by decide
theorem test_add_to_vf_leaves_the_carry : gives (((start 0x8F14).setReg vf 0x10).setReg 1 0x20)
    (fun t => t.reg vf == 0x00) = true := by decide
theorem test_sub_borrows : gives (((start 0x8125).setReg 1 0x01).setReg 2 0x02)
    (fun t => t.reg 1 == 0xFF && t.reg vf == 0x00) = true := by decide
theorem test_sub_equal : gives (((start 0x8125).setReg 1 0x07).setReg 2 0x07)
    (fun t => t.reg 1 == 0x00 && t.reg vf == 0x01) = true := by decide
theorem test_shr_in_place : gives (((start 0x8126).setReg 1 0x81).setReg 2 0x55)
    (fun t => t.reg 1 == 0x40 && t.reg vf == 0x01 && t.reg 2 == 0x55) = true := by decide
theorem test_shr_of_vf : gives ((start 0x8F06).setReg vf 0x02) (fun t => t.reg vf == 0x00) = true := by decide
theorem test_subn_borrows : gives (((start 0x8127).setReg 1 0x05).setReg 2 0x03)
    (fun t => t.reg 1 == 0xFE && t.reg vf == 0x00) = true := by decide
theorem test_shl_in_place : gives (((start 0x812E).setReg 1 0x81).setReg 2 0x55)
    (fun t => t.reg 1 == 0x02 && t.reg vf == 0x01 && t.reg 2 == 0x55) = true := by decide
theorem test_rnd_masks : gives (start 0xC30F ⟨0, none, 0xA7⟩) (fun t => t.reg 3 == 0x07) = true := by decide

/-! ### Index register and memory (M) -/

theorem test_ldI : gives (start 0xAFFF) (fun t => t.i == 0x0FFF) = true := by decide
theorem test_addI_wraps : gives ((((start 0xF21E).setI 0x0FFF).setReg 2 0x01).setReg vf 0x55)
    (fun t => t.i == 0x0000 && t.reg vf == 0x55) = true := by decide
theorem test_addI_flag_when_the_parameter_is_set : gives (withParam (((start 0xFF1E).setI 0x0FFE).setReg vf 0x03))
    (fun t => t.i == 0x0001 && t.reg vf == 0x01) = true := by decide
theorem test_ldF_all_eight_bits : gives ((start 0xF429).setReg 4 0xFF) (fun t => t.i == 0x054B) = true := by decide
theorem test_ldB_156 : gives (((start 0xF333).setI 0x0300).setReg 3 0x9C)
    (fun t => t.mem.getMany 0x300 3 == [0x01, 0x05, 0x06] && t.i == 0x0300) = true := by decide
theorem test_ldB_at_the_top : step (((start 0xF333).setI 0x0FFE).setReg 3 0x9C) = .fault (.outOfBounds 4096) := rfl
theorem test_storeRegs : gives ((((start 0xF155).setI 0x0300).setReg 0 0x0A).setReg 1 0x0B)
    (fun t => t.mem.getMany 0x300 3 == [0x0A, 0x0B, 0x00] && t.i == 0x0300) = true := by decide
theorem test_loadRegs : gives ((withBytes ((start 0xF165).setI 0x0300) 0x300 [0x0A, 0x0B, 0x0C]).setReg 2 0x77)
    (fun t => t.reg 0 == 0x0A && t.reg 1 == 0x0B && t.reg 2 == 0x77) = true := by decide

/-! ### Display (DR, S7 to S9) -/

theorem test_cls : gives ((withRow (start 0x00E0) 31 0x1).setReg vf 0x01)
    (fun t => row t 31 == 0 && t.reg vf == 0x01 && t.report.displayMutated) = true := by decide
theorem test_drw_clips_at_the_right_edge : gives ((withBytes ((start 0xD011).setI 0x0300) 0x300 [0xFF]).setReg 0 0x3C)
    (fun t => row t 0 == 0x000000000000000F && t.reg vf == 0x00) = true := by decide
theorem test_drw_collides : gives (withRow (withBytes ((start 0xD011).setI 0x0300) 0x300 [0xC0]) 0 0x4000000000000000)
    (fun t => row t 0 == 0x8000000000000000 && t.reg vf == 0x01) = true := by decide

/-! ### Keys and timers (T) -/

theorem test_skp_key_15 : gives ((start 0xE09E ⟨0x8000, none, 0⟩).setReg 0 0x0F)
    (fun t => t.pc == 0x0204) = true := by decide
theorem test_skp_key_number_16 : step ((start 0xE59E ⟨0xFFFF, none, 0⟩).setReg 5 0x10) = .fault (.outOfBounds 16) := rfl
theorem test_sknp_key_down : gives ((start 0xE5A1 ⟨0x0400, none, 0⟩).setReg 5 0x0A)
    (fun t => t.pc == 0x0202) = true := by decide
theorem test_ldVxDT : gives { start 0xF407 with dt := 0x2C } (fun t => t.reg 4 == 0x2C && t.dt == 0x2C) = true := by
  decide
theorem test_ldVxK_waits : gives ((start 0xF30A ⟨0xFFFF, none, 0⟩).setReg 3 0x55)
    (fun t => t.pc == 0x0200 && t.reg 3 == 0x55 && t.report.outcome == .waitingForKey) = true := by decide
theorem test_ldVxK_takes_key_7 : gives ((start 0xF30A ⟨0, some 7, 0⟩).setReg 3 0x55)
    (fun t => t.pc == 0x0202 && t.reg 3 == 0x07) = true := by decide
theorem test_ldDTVx : gives ({ start 0xF415 with dt := 0x05 }.setReg 4 0x3C)
    (fun t => t.dt == 0x3C && t.st == 0x00) = true := by decide
theorem test_ldSTVx : gives ({ start 0xF418 with dt := 0x07 }.setReg 4 0xFF)
    (fun t => t.st == 0xFF && t.dt == 0x07) = true := by decide

/-! ### TICK, LOAD, RESET (T20, L) -/

theorem test_tick : gives { State.reset with dt := 0x03, st := 0x00, pending := [.tick] }
    (fun t => t.dt == 0x02 && t.st == 0x00 && t.pc == 0x0200) = true := by decide
theorem test_load_last_byte : gives { State.reset with pending := [.load [0xAA] 4095] }
    (fun t => t.mem == [(4095, 0xAA)]) = true := by decide
theorem test_load_too_large : step { State.reset with pending := [.load [] 4097] } = .fault .programTooLarge := rfl
theorem test_load_default_font_glyphs_1_and_F :
    (Memory.setMany [] 0x050 Config.defaultFont).get 0x055 = 0x20 ∧
    (Memory.setMany [] 0x050 Config.defaultFont).get 0x09F = 0x80 := by
  rw [Memory.get_setMany, Memory.get_setMany]; decide
theorem test_reset_clears : gives { (start 0x6005).setReg 3 0x55 with sp := 7, dt := 0x09, pending := [.reset] }
    (fun t => t.reg 3 == 0x00 && t.sp == 0 && t.dt == 0x00 && t.mem == []) = true := by decide

/-! ### Runs (R250, U13) -/

/-- A LOAD that does not fit is no fault of a run: the run is refused before it. -/
theorem test_run_refuses_load : runFor 1 { State.reset with pending := [.load [] 4097] } =
    .outsideRun { State.reset with pending := [.load [] 4097] } := rfl
theorem test_safe_run_refuses_reset : safeFor 1 { start 0x6005 with pending := [.reset] } = false := by decide

/-! ## Witnesses: states and operands that meet the hypotheses of the statements

Each is named after its statement, one conjunct for each clause, at boundary values. -/

/-- The state with this `PC`. -/
def atPc (pc : Word) : State := { State.reset with pc := pc }

/-- The state with this `I`. -/
def atI (i : Word) : State := State.reset.setI i

theorem witness_DecodeThenEncodeIsIdentity : decodeWord 0x8FFE = .ok (.shl 15 15) := by decide

theorem witness_DecodeAgreesWithOpcodeMap :
    decodeWord 0xFF65 = .ok (.loadRegs 15) ∧
    (⟨0xF0FF, 0xF065⟩ : OpcodeRow) ∈ opcodeRows ∧ (0xFF65 : Word) &&& 0xF0FF = 0xF065 := by decide

theorem witness_FetchIsBigEndianAndBounded :
    (atPc 0x0FFE).pc.toNat ≤ 4094 ∧ (atPc 0x0FFF).pc.toNat = 4095 ∧ 4095 < (atPc 0x1000).pc.toNat := by decide

theorem witness_EqualReadsAreEqualMemories :
    Memory.wf [(4095, 0x01)] = true ∧ ∀ a, Memory.get [(4095, 0x01)] a = Memory.get [(4095, 0x01)] a :=
  ⟨by decide, fun _ => rfl⟩

theorem witness_StoreIsFetchedAtOnce : 14 + 1 ≤ (15 : RegNo).val ∧
    ∃ t, exec (.storeRegs 15) (atI 0x0FF0) = .next t := ⟨by decide, _, rfl⟩

theorem witness_StepRunsTheDecodedInstruction_next : (start 0x6005).stepsNext = true ∧
    (start 0x6005).fetchable = true ∧ decodeWord (start 0x6005).wordAtPc = .ok (.ldImm 0 5) ∧
    ∃ t, exec (.ldImm 0 5) { start 0x6005 with pc := (start 0x6005).pc + 2 } = .next t :=
  ⟨rfl, by decide, by decide, _, rfl⟩

theorem witness_StepRunsTheDecodedInstruction_fault : (start 0x00EE).stepsNext = true ∧
    (start 0x00EE).fetchable = true ∧ decodeWord (start 0x00EE).wordAtPc = .ok .ret ∧
    exec .ret { start 0x00EE with pc := (start 0x00EE).pc + 2 } = .fault .stackUnderflow :=
  ⟨rfl, by decide, by decide, rfl⟩

theorem witness_FetchOutOfRangeStopsTheStep :
    ((atPc 0x0FFF).stepsNext = true ∧ (atPc 0x0FFF).pc.toNat = 4095) ∧
    ((atPc 0x1000).stepsNext = true ∧ 4095 < (atPc 0x1000).pc.toNat) := by decide

theorem witness_UnknownWordIsReportedAndSkipped : (start 0x9AB1).stepsNext = true ∧
    (start 0x9AB1).fetchable = true ∧
    decodeWord (start 0x9AB1).wordAtPc = .error (.unknownOpcode (start 0x9AB1).wordAtPc) := by decide

theorem witness_EachInstructionCompletesOrRaisesItsError :
    faultOf (.ldB 0) (atI 0x0FFD) = none ∧ faultOf (.ldB 0) (atI 0x0FFE) = some (.outOfBounds 4096) := by decide

theorem witness_InstructionsWriteOnlyWhatTheMatrixLists :
    ∃ t, exec (.ldB 0) (atI 0x0FFD) = .next t := ⟨_, rfl⟩

theorem witness_CompletedInstructionsReportTheirOutcome :
    (∃ t, exec .halt State.reset = .next t) ∧ (start 0xF30A).inputs.keyEvent = none ∧
    (∃ t, exec (.ldVxK 3) (start 0xF30A) = .next t) ∧ ∃ t, exec (.jp 0) State.reset = .next t :=
  ⟨⟨_, rfl⟩, rfl, ⟨_, rfl⟩, _, rfl⟩

theorem witness_OnlyFourInstructionsReadTheInputs : readsInputs .ret = false ∧
    (∃ t, exec .ret { State.reset with sp := 1 } = .next t) ∧ exec .ret State.reset = .fault .stackUnderflow :=
  ⟨rfl, ⟨_, rfl⟩, rfl⟩

theorem witness_FatalErrorsChangeNothing : step (start 0x00EE) = .fault .stackUnderflow := rfl

theorem witness_FaultRecursOnTheNextStep : ∃ s t : State, s.stepsNext = true ∧ t.stepsNext = true ∧
    step s = .fault .stackUnderflow ∧ t.v = s.v ∧ t.pc = s.pc ∧ t.i = s.i ∧ t.sp = s.sp ∧
    (∀ a, t.memRead a = s.memRead a) ∧ t ≠ s :=
  ⟨start 0x00EE, { start 0x00EE with dt := 0x01, pending := [] }, rfl, rfl, rfl, rfl, rfl, rfl, rfl,
    fun _ => rfl, by decide⟩

theorem witness_ResetEventFromAnyState :
    { start 0x6005 with pending := [.reset, .tick] }.pending = .reset :: [.tick] := rfl

theorem witness_LoadWritesItsBytesOrRaises :
    { State.reset with pending := [.load [0x0A] 4095] }.pending = .load [0x0A] 4095 :: [] ∧
    4095 + [(0x0A : Byte)].length ≤ 4096 ∧ 4096 < 4096 + [(0x0A : Byte)].length := by decide

theorem witness_TickDecrementsBothTimers : { State.reset with pending := [.tick] }.pending = .tick :: [] := rfl

theorem witness_TimersCountDownAndStayAtZero :
    { State.reset with pending := [.tick, .tick, .reset] }.pending = List.replicate 2 Event.tick ++ [.reset] := rfl

theorem witness_BootReachesTheLaunchState : fontWf Config.defaultFont = true ∧
    programWf [0x60, 0x05, 0x12, 0x00] = true ∧
    { State.reset with pending := bootEvents Config.defaultFont [0x60, 0x05, 0x12, 0x00] ++ [Event.tick] }.pending =
      bootEvents Config.defaultFont [0x60, 0x05, 0x12, 0x00] ++ [Event.tick] := ⟨by decide, by decide, rfl⟩

theorem witness_LaunchMemoryHoldsFontAndProgram : fontWf Config.defaultFont = true ∧
    programWf (List.replicate 3584 0x00) = true ∧ (0x1FF ≤ 4095 ∧ (0x0A0 ≤ 0x1FF) ∧ 0x1FF < 0x200) :=
  ⟨test_wf_accepts_default_font, test_wf_accepts_program_of_3584_bytes, by decide⟩

theorem witness_StateInv_start : StateInv (start 0x6005) := ⟨by decide, by decide, by decide, by decide⟩

theorem witness_EveryStepKeepsTheInvariant : ∃ s t : State, StateInv s ∧ step s = .next t :=
  ⟨start 0x6005, _, witness_StateInv_start, rfl⟩

theorem witness_ReachableStatesAreBounded : Reachable { State.reset with params := ⟨true⟩, pending := [.tick] } :=
  Reachable.reset ⟨true⟩ [.tick]

theorem witness_EndOfRunIsFinal :
    (∃ t, runFor 1 (start 0x0000) = .halted t) ∧ ∃ t, runFor 1 (start 0x00EE) = .faulted .stackUnderflow t :=
  ⟨⟨_, rfl⟩, _, rfl⟩

theorem witness_SafeRunsDoNotFault :
    (safeFor 1 (start 0x6005) = true ∧ ∃ t, runFor 1 (start 0x6005) = .running t) ∧
    (safeFor 2 (start 0x0000) = true ∧ ∃ t, runFor 2 (start 0x0000) = .halted t) ∧
    safeFor 1 (start 0x5AB1) = false := ⟨⟨by decide, _, rfl⟩, ⟨by decide, _, rfl⟩, by decide⟩

theorem witness_RunsHoldNoResetAndNoLoad :
    { State.reset with pending := [.reset] }.pending = .reset :: [] ∧
    { State.reset with pending := [.load [0x0A] 4096] }.pending = .load [0x0A] 4096 :: [] ∧
    ∀ e ∈ (start 0x6005).pending, e.inRun = true := ⟨rfl, rfl, by decide⟩

theorem witness_CallPushesAndJumps :
    { State.reset with sp := 15 }.sp.val < 16 ∧ { State.reset with sp := 16 }.sp.val = 16 := by decide

theorem witness_ReturnPopsIntoPc :
    { State.reset with sp := 16 }.sp.val = (15 : Fin 16).val + 1 ∧
    { State.reset with sp := 1 }.sp.val = (0 : Fin 16).val + 1 ∧
    State.reset.sp.val = 0 := by decide

theorem witness_ReturnComesBackAfterTheCall :
    ∃ t, exec (.call 0xFFF) { State.reset with sp := 15 } = .next t := ⟨_, rfl⟩

theorem witness_SixteenNestedCallsThenOverflow :
    State.reset.sp.val + (List.replicate 16 (0x200 : Addr12)).length = 16 := by decide

theorem witness_inputs_of_the_event : (start 0xC30F ⟨0x8000, some 7, 0xA7⟩).pending = .step ⟨0x8000, some 7, 0xA7⟩ :: [] :=
  rfl

theorem witness_KeySkips : ((atI 0).setReg 5 0x0F |>.reg 5).toNat ≤ 15 ∧
    15 < ((atI 0).setReg 5 0x10 |>.reg 5).toNat := by decide

theorem witness_results_other_than_vf : (14 : RegNo) ≠ vf ∧ (15 : RegNo) = vf := by decide

theorem witness_RandomByteIsMasked : (0x7F : Byte).getLsbD 7 = false := by decide

theorem witness_DecimalDigitsAreStored :
    (atI 0x0FFD).base + 3 ≤ 4096 ∧ 4096 < (atI 0x0FFE).base + 3 := by decide

theorem witness_RegistersAreStored_and_loaded :
    (atI 0x0FF0).base + (15 : RegNo).val ≤ 4095 ∧ 4095 < (atI 0x0FF1).base + (15 : RegNo).val := by decide

theorem witness_LoadAfterStoreRestoresRegisters :
    ∃ t, exec (.storeRegs 15) (atI 0x0FF0) = .next t := ⟨_, rfl⟩

theorem witness_SpriteByteColumns : 63 ≤ 63 ∧ (rowmask 0x80 63).getLsbD (63 - (63 : Fin 64).val) = true ∧
    (rowmask 0x7F 63).getLsbD 0 = false := by decide

/-- The vector DR10: a sprite whose one byte is the last byte of memory; the second conjunct is `n = 0`. -/
theorem witness_SpriteIsXoredOntoTheDisplay :
    (atI 0x0FFF).base + (1 : Nibble).toNat ≤ 4096 ∧ (0 : Nibble) = 0 ∧
    ¬(atI 0x0FFF).base + (2 : Nibble).toNat ≤ 4096 := by
  decide

theorem witness_DrawingTwiceRestoresTheDisplay : (0 : RegNo) ≠ vf ∧ ∃ t,
    exec (.drw 0 0 1) (withBytes (atI 0x0300) 0x300 [0xFF]) = .next t ∧ t.disp ≠ State.reset.disp ∧
    ∀ r, (withBytes (atI 0x0300) 0x300 [0xFF]).disp.get r = 0 :=
  ⟨by decide, _, rfl, by decide, by decide⟩

theorem witness_WaitForKey :
    (start 0xF30A ⟨0, some 15, 0⟩).inputs.keyEvent = some 15 ∧ (start 0xF30A).inputs.keyEvent = none := ⟨rfl, rfl⟩

end Sys2Proof.Tests
end

