-- ==== Sys2Proof/Proofs/Scope.lean ====
section
/-! PROOFS. What the environment sees of an instruction, and what of the environment an instruction sees (spec
00_scope R8, R9): the report of a completed instruction, and that neither the report of an earlier event nor, for
an instruction that reads no input, the schedule has any effect. -/

namespace Sys2Proof.Machine

/-! ## The report of a completed instruction (R9) -/

/-- The outcome `i` reports when it completes from `s` (R201). -/
def outcomeOf (i : Instr) (s : State) : EventOutcome :=
  match i with
  | .halt => .halt
  | .ldVxK _ => if s.inputs.keyEvent = none then .waitingForKey else .ok
  | _ => .ok

theorem outcomeOf_eq (i : Instr) (s : State) :
    outcomeOf i s = if i = .halt then .halt
      else if (∃ x, i = .ldVxK x) ∧ s.inputs.keyEvent = none then .waitingForKey else .ok := by
  cases i <;> simp [outcomeOf]

theorem reports_of_finish {o : EventOutcome} {j : Bool} {s u t : State} (h : finish o j s u = .next t) :
    Reports o j s t := by
  obtain ⟨v, hv, -, -, -, hr⟩ := finish_spec o j s u
  obtain rfl : v = t := Host.Outcome.next.inj (hv.symm.trans h)
  exact hr

/-- Every instruction that completes does so by `finish`, some after an operation that may raise. -/
theorem reports_of_exec {i : Instr} {s t : State} (h : exec i s = .next t) :
    Reports (outcomeOf i s) (isJump i) s t := by
  cases i with
  | ret | call | drw | skp | sknp | ldB | storeRegs | loadRegs =>
    obtain ⟨a, -, ha⟩ := (attempt_next _ _ _).1 h
    exact reports_of_finish ha
  | ldVxK x =>
    simp only [exec, execLdVxK] at h
    have hr := reports_of_finish h
    cases hk : s.inputs.keyEvent <;> simpa [outcomeOf, isJump, hk] using hr
  | _ => exact reports_of_finish h

/-- Settles O17: every instruction ends in `finish`, with the outcome and the jump bit of its rule. -/
theorem completedInstructionsReportTheirOutcome : Obligations.CompletedInstructionsReportTheirOutcome := by
  intro i s t h
  rw [← outcomeOf_eq]
  exact reports_of_exec h

/-! ## Another schedule, another report

`s.withEnv p d r` is `s` for the CORE: it differs in what stands beside the spec's state. Each shared operation
commutes with `withEnv`, so every instruction does, as far as its inputs are the same. -/

/-- `s` with another schedule, counter of free inputs and report of the last event. -/
def State.withEnv (s : State) (p : List Event) (d : Nat) (r : Report) : State :=
  { s with pending := p, draws := d, report := r }

/-- The result with another schedule and counter in its next state, if it has one. -/
def reschedule (p : List Event) (d : Nat) : Result → Result
  | .next t => .next { t with pending := p, draws := d }
  | .fault f => .fault f
  | .refused u => .refused u

section
variable (s t : State) (p : List Event) (d : Nat) (r : Report)

theorem skipIf_withEnv (c : Bool) : (s.withEnv p d r).skipIf c = (s.skipIf c).withEnv p d r := by
  cases c <;> rfl

theorem push_withEnv (w : Word) :
    (s.withEnv p d r).push w = (s.push w).map (State.withEnv · p d r) := by
  by_cases h : s.sp.val < 16
  · rw [push_ok s w h]
    exact push_ok (s.withEnv p d r) w h
  · have h16 : s.sp.val = 16 := by omega
    rw [push_error s w h16]
    exact push_error (s.withEnv p d r) w h16

theorem pop_withEnv :
    (s.withEnv p d r).pop = s.pop.map fun a => (a.1, a.2.withEnv p d r) := by
  by_cases h : s.sp.val = 0
  · rw [pop_error s h]
    exact pop_error (s.withEnv p d r) h
  · have hk : s.sp.val = (⟨s.sp.val - 1, by omega⟩ : Fin 16).val + 1 := by simp only; omega
    rw [pop_ok s _ hk]
    exact pop_ok (s.withEnv p d r) _ hk

theorem storeSpan_withEnv (base : Nat) (bytes : List Byte) :
    (s.withEnv p d r).storeSpan base bytes = (s.storeSpan base bytes).map (State.withEnv · p d r) := by
  unfold State.storeSpan
  cases checkSpan base bytes.length <;> rfl

/-- `finish` overwrites the report and compares `V[15]` and the display alone. -/
theorem finish_withEnv (o : EventOutcome) (j : Bool) :
    finish o j (s.withEnv p d r) (t.withEnv p d r) = reschedule p d (finish o j s t) := rfl

theorem attempt_reschedule {α : Type} {k k' : α → Result} (e : Except Fault α)
    (h : ∀ a, k' a = reschedule p d (k a)) : attempt e k' = reschedule p d (attempt e k) := by
  cases e with
  | ok a => exact h a
  | error f => rfl

theorem attempt_map_reschedule {α : Type} {k k' : α → Result} {g : α → α} {e e' : Except Fault α}
    (he : e' = e.map g) (h : ∀ a, k' (g a) = reschedule p d (k a)) :
    attempt e' k' = reschedule p d (attempt e k) := by
  subst he
  cases e with
  | ok a => exact h a
  | error f => rfl

theorem done_skipIf_withEnv (c : Bool) : done (s.withEnv p d r) ((s.withEnv p d r).skipIf c) =
    reschedule p d (done s (s.skipIf c)) := by
  rw [skipIf_withEnv]
  exact finish_withEnv s (s.skipIf c) p d r .ok false

/-- An instruction does not read the report, and of schedule and counter it reads at most the inputs of its STEP. -/
theorem exec_withEnv (i : Instr) (h : readsInputs i = true → (s.withEnv p d r).inputs = s.inputs) :
    exec i (s.withEnv p d r) = reschedule p d (exec i s) := by
  cases i with
  | ret => exact attempt_map_reschedule p d (pop_withEnv s p d r) fun _ => rfl
  | call => exact attempt_map_reschedule p d (push_withEnv s p d r s.pc) fun _ => rfl
  | ldB | storeRegs => exact attempt_map_reschedule p d (storeSpan_withEnv s p d r _ _) fun _ => rfl
  | drw | loadRegs => exact attempt_reschedule p d _ fun _ => rfl
  | seImm | sneImm | seReg | sneReg => exact done_skipIf_withEnv s p d r _
  | skp | sknp =>
    simp only [exec, execSkp, execSknp, h rfl]
    exact attempt_reschedule p d _ fun _ => done_skipIf_withEnv s p d r _
  | rnd =>
    simp only [exec, execRnd, h rfl]
    rfl
  | ldVxK =>
    simp only [exec, execLdVxK, h rfl]
    cases s.inputs.keyEvent <;> rfl
  | addI x =>
    simp only [exec, execAddI, show (s.withEnv p d r).params = s.params from rfl]
    cases s.params.fx1eSetsVF <;> rfl
  | _ => rfl

end

/-- Settles O18: an instruction that reads no input commutes with a change of schedule and counter. -/
theorem onlyFourInstructionsReadTheInputs : Obligations.OnlyFourInstructionsReadTheInputs := by
  intro i s p d hi
  have h : exec i { s with pending := p, draws := d } = reschedule p d (exec i s) :=
    exec_withEnv s p d s.report i (by simp [hi])
  exact ⟨fun t ht => by rw [h, ht]; rfl, fun f hf => by rw [h, hf]; rfl⟩

/-! ## No event reads the report (R9, R30) -/

/-- With the schedule kept, the inputs are the same, so both sides are the same rescheduled result. -/
theorem exec_report (i : Instr) (s : State) (r : Report) : exec i { s with report := r } = exec i s :=
  (exec_withEnv s s.pending s.draws r i fun _ => rfl).trans
    (exec_withEnv s s.pending s.draws s.report i fun _ => rfl).symm

theorem instructionStep_report (s : State) (r : Report) :
    instructionStep { s with report := r } = instructionStep s := by
  have hexec : ∀ i, exec i { s with report := r }.advance = exec i s.advance := fun i =>
    exec_report i s.advance r
  have hunknown : ∀ w, execUnknown w { s with report := r }.advance = execUnknown w s.advance := fun _ => rfl
  simp only [instructionStep, State.fetchWord_congr (s := s) (t := { s with report := r }) rfl rfl, hexec, hunknown]

theorem nextEvent_report (s : State) (r : Report) : nextEvent { s with report := r } = nextEvent s := by
  simp only [nextEvent, instructionStep_report]
  rfl

/-- Settles O19: RESET, LOAD and TICK overwrite the report unread, and so does every instruction of a STEP. -/
theorem reportIsNeverRead : Obligations.ReportIsNeverRead :=
  fun s r => ⟨nextEvent_report s r, fun i => exec_report i s r⟩

end Sys2Proof.Machine
end

