-- ==== Sys2Proof/Proofs/State.lean ====
section
/-! PROOFS. The state of the CORE (spec 10_state): its values after RESET (R31), the invariant of reachable states
(R32), what each instruction writes (R33), canonical memories, and calls that nest (R25). -/

namespace Sys2Proof.Machine

/-! ## What a shared operation did, when it did not raise -/

section
variable {s t u : State} {w : Word} {base n : Nat} {bytes : List Byte} {o : EventOutcome} {j : Bool}

theorem sameCore_of_finish (h : finish o j s u = .next t) : SameCore u t := by
  obtain ⟨v, hv, e, -⟩ := finish_spec o j s u
  obtain rfl : v = t := Host.Outcome.next.inj (hv.symm.trans h)
  exact e

/-- A fetch that does not raise has both its bytes below 4096 (R100). -/
theorem pc_of_fetchWord_ok (h : s.fetchWord = .ok w) : s.pc.toNat ≤ 4094 := by
  by_contra hpc
  rcases (by omega : s.pc.toNat = 4095 ∨ 4095 < s.pc.toNat) with htop | hbeyond
  · simp [fetchWord_top s htop] at h
  · simp [fetchWord_beyond s hbeyond] at h

theorem push_eq_ok (h : s.push w = .ok t) : ∃ hsp : s.sp.val < 16,
    t = { s with stack := s.stack.set s.sp.val w hsp, sp := ⟨s.sp.val + 1, Nat.succ_lt_succ hsp⟩ } := by
  by_cases hsp : s.sp.val < 16
  · rw [push_ok s w hsp] at h
    exact ⟨hsp, (Except.ok.inj h).symm⟩
  · simp [push_error s w (by omega)] at h

theorem pop_eq_ok {a : Word × State} (h : s.pop = .ok a) :
    ∃ k : Fin 16, a = (s.stack.get k, { s with sp := ⟨k.val, Nat.lt_succ_of_lt k.isLt⟩ }) := by
  by_cases hsp : s.sp.val = 0
  · simp [pop_error s hsp] at h
  · have hk : s.sp.val = (⟨s.sp.val - 1, by omega⟩ : Fin 16).val + 1 := by simp only; omega
    rw [pop_ok s _ hk] at h
    exact ⟨_, (Except.ok.inj h).symm⟩

theorem storeSpan_eq_ok (h : s.storeSpan base bytes = .ok t) :
    (bytes.length = 0 ∨ base + bytes.length ≤ 4096) ∧ t = { s with mem := s.mem.setMany base bytes } := by
  by_cases hfit : bytes.length = 0 ∨ base + bytes.length ≤ 4096
  · rw [storeSpan_ok s base bytes hfit] at h
    exact ⟨hfit, (Except.ok.inj h).symm⟩
  · simp [storeSpan_error s base bytes (by omega) (by omega)] at h

theorem length_of_loadSpan_ok (h : s.loadSpan base n = .ok bytes) : bytes.length = n := by
  rcases loadSpan_cases s base n with hok | herr
  · rw [← Except.ok.inj (hok.symm.trans h), Memory.getMany_length]
  · simp [herr] at h

theorem loadEvent_eq_next (h : s.loadEvent bytes base = .next t) :
    base + bytes.length ≤ 4096 ∧ t = { s with mem := s.mem.setMany base bytes, report := Report.okay } := by
  by_cases hfit : 4096 < base + bytes.length
  · simp [State.loadEvent, hfit, raise] at h
  · rw [State.loadEvent, if_neg hfit] at h
    exact ⟨Nat.not_lt.1 hfit, (Host.Outcome.next.inj h).symm⟩

/-- What an event that completes can be: a RESET, a LOAD, a TICK or a STEP (R7). -/
theorem step_cases (h : step s = .next t) : ∃ u, t = u.afterEvent ∧
    (u = s.resetEvent ∨
      (∃ bytes base, s.loadEvent bytes base = .next u) ∨ u = s.tick ∨ instructionStep s = .next u) := by
  obtain ⟨u, hu, rfl⟩ := (leave_eq_next _ _).1 h
  refine ⟨u, rfl, ?_⟩
  rcases hp : s.pending with _ | ⟨_ | ⟨bytes, base⟩ | inputs | _, rest⟩ <;> simp only [hp] at hu
  case nil => exact .inr (.inr (.inr hu))
  case cons.reset => exact .inl (Host.Outcome.next.inj hu).symm
  case cons.load => exact .inr (.inl ⟨bytes, base, hu⟩)
  case cons.step => exact .inr (.inr (.inr hu))
  case cons.tick => exact .inr (.inr (.inl (Host.Outcome.next.inj hu).symm))

/-- What a STEP that completes did: it fetched at `PC`, and from pc2 it executed the word's instruction or skipped an
unknown word (R100, R106). -/
theorem instructionStep_cases (h : instructionStep s = .next t) : s.pc.toNat ≤ 4094 ∧
    ((∃ i, exec i s.advance = .next t) ∨ ∃ w, execUnknown w s.advance = .next t) := by
  obtain ⟨w, hw, h⟩ := (attempt_next _ _ _).1 h
  refine ⟨pc_of_fetchWord_ok hw, ?_⟩
  cases hd : decodeWord w with
  | ok i => exact .inl ⟨i, by simpa only [hd] using h⟩
  | error r => exact .inr ⟨w, by simpa only [hd] using h⟩

end

/-! ## The invariant of reachable states (R32) -/

section
variable {s t u : State} {o : EventOutcome} {j : Bool}

/-- The invariant speaks of memory, `I`, the stack entries and `PC` alone. -/
theorem StateInv.of_fields (h : StateInv s) (hm : t.mem = s.mem) (hi : t.i = s.i) (hk : t.stack = s.stack)
    (hp : t.pc = s.pc) : StateInv t := by
  simpa only [StateInv, hm, hi, hk, hp] using h

theorem StateInv.of_finish (hf : finish o j s u = .next t) (h : StateInv u) : StateInv t := by
  obtain ⟨-, hp, hi, hk, -, -, -, -, hm, -⟩ := sameCore_of_finish hf
  exact h.of_fields hm hi hk hp

theorem StateInv.afterEvent (h : StateInv s) : StateInv s.afterEvent :=
  h.of_fields s.afterEvent_mem s.afterEvent_i s.afterEvent_stack s.afterEvent_pc

theorem StateInv.setReg (h : StateInv s) (k : RegNo) (b : Byte) : StateInv (s.setReg k b) :=
  h.of_fields rfl rfl rfl rfl

theorem StateInv.writeWithFlag (h : StateInv s) (x : RegNo) (b : Byte) (f : Bool) :
    StateInv (s.writeWithFlag x b f) := h.of_fields rfl rfl rfl rfl

theorem StateInv.setPc (h : StateInv s) {a : Word} (ha : a.toNat ≤ 0x10FE) : StateInv (s.setPc a) := by
  obtain ⟨hm, hi, hk, -⟩ := h
  exact ⟨hm, hi, hk, ha⟩

theorem StateInv.setI (h : StateInv s) {a : Word} (ha : a.toNat ≤ 0x0FFF) : StateInv (s.setI a) := by
  obtain ⟨hm, -, hk, hp⟩ := h
  exact ⟨hm, ha, hk, hp⟩

theorem toNat_add_two {a : Word} (h : a.toNat ≤ 4096) : (a + 2).toNat = a.toNat + 2 := by bv_omega

/-- A skip from pc2 leads to 4098 at most. -/
theorem StateInv.skipIf (h : StateInv s) (hpc : s.pc.toNat ≤ 4096) (c : Bool) : StateInv (s.skipIf c) := by
  cases c with
  | false => exact h
  | true => exact h.setPc (by rw [toNat_add_two hpc]; omega)

/-- A write of several bytes that fits. -/
theorem StateInv.setMany (h : StateInv s) {base : Nat} {bytes : List Byte}
    (hfit : bytes.length = 0 ∨ base + bytes.length ≤ 4096) :
    StateInv { s with mem := s.mem.setMany base bytes } := by
  obtain ⟨hm, hi, hk, hp⟩ := h
  refine ⟨?_, hi, hk, hp⟩
  rcases hfit with hnil | hfit
  · rw [List.length_eq_zero_iff.1 hnil]
    exact hm
  · exact Memory.setMany_wf bytes s.mem base hm hfit

theorem StateInv.storeSpan (h : StateInv s) {base : Nat} {bytes : List Byte}
    (hs : s.storeSpan base bytes = .ok t) : StateInv t := by
  obtain ⟨hfit, rfl⟩ := storeSpan_eq_ok hs
  exact h.setMany hfit

theorem StateInv.push (h : StateInv s) {w : Word} (hw : w.toNat ≤ 4096) (hs : s.push w = .ok t) : StateInv t := by
  obtain ⟨hm, hi, hk, hp⟩ := h
  obtain ⟨hsp, rfl⟩ := push_eq_ok hs
  refine ⟨hm, hi, fun k => ?_, hp⟩
  have hk' := hk k
  simp only [Vector.get_eq_getElem, Vector.getElem_set] at hk' ⊢
  split
  · exact hw
  · exact hk'

/-- A return goes to a stack entry. -/
theorem StateInv.pop (h : StateInv s) {a : Word × State} (hs : s.pop = .ok a) : StateInv (a.2.setPc a.1) := by
  obtain ⟨hm, hi, hk, -⟩ := h
  obtain ⟨k, rfl⟩ := pop_eq_ok hs
  have hpc : (s.stack.get k).toNat ≤ 0x10FE := (hk k).trans (by decide)
  exact ⟨hm, hi, hk, hpc⟩

theorem zextAddr_le (nnn : Addr12) : (zextAddr nnn).toNat ≤ 0x0FFF := by
  have := nnn.isLt
  simp only [zextAddr, BitVec.toNat_setWidth]
  omega

theorem glyphAddr_le (a : Byte) : (glyphAddr a).toNat ≤ 0x0FFF := by
  have ha : a.toNat < 256 := a.isLt
  simp only [glyphAddr, BitVec.toNat_ofNat]
  exact (Nat.mod_le _ _).trans (by omega)

theorem jumpV0_le (nnn : Addr12) (a : Byte) : (BitVec.ofNat 16 (nnn.toNat + a.toNat)).toNat ≤ 0x10FE := by
  have := nnn.isLt
  have := a.isLt
  simp only [BitVec.toNat_ofNat]
  omega

theorem mod_4096_le (n : Nat) : (BitVec.ofNat 16 (n % 4096)).toNat ≤ 0x0FFF := by
  simp only [BitVec.toNat_ofNat]
  omega

/-- Every instruction keeps the invariant, from a `PC` that a fetch can have left: pc2 between 2 and 4096. -/
theorem StateInv.exec {i : Instr} (hs : StateInv s) (hlow : 2 ≤ s.pc.toNat) (hhigh : s.pc.toNat ≤ 4096)
    (h : exec i s = .next t) : StateInv t := by
  cases i with
  | halt => exact .of_finish h hs
  | cls | ldDTVx | ldSTVx => exact .of_finish h (hs.of_fields rfl rfl rfl rfl)
  | ldImm | addImm | ldReg | orReg | andReg | xorReg | rnd | ldVxDT => exact .of_finish h (hs.setReg _ _)
  | addReg | subReg | shr | subn | shl => exact .of_finish h (hs.writeWithFlag _ _ _)
  | seImm | sneImm | seReg | sneReg => exact .of_finish h (hs.skipIf hhigh _)
  | skp | sknp =>
    obtain ⟨k, -, h⟩ := (attempt_next _ _ _).1 h
    exact .of_finish h (hs.skipIf hhigh _)
  | jp nnn => exact .of_finish h (hs.setPc ((zextAddr_le nnn).trans (by decide)))
  | jpV0 nnn => exact .of_finish h (hs.setPc (jumpV0_le nnn _))
  | call nnn =>
    obtain ⟨u, hu, h⟩ := (attempt_next _ _ _).1 h
    exact .of_finish h ((hs.push hhigh hu).setPc ((zextAddr_le nnn).trans (by decide)))
  | ret =>
    obtain ⟨a, ha, h⟩ := (attempt_next _ _ _).1 h
    exact .of_finish h (hs.pop ha)
  | ldI nnn => exact .of_finish h (hs.setI (zextAddr_le nnn))
  | ldF x => exact .of_finish h (hs.setI (glyphAddr_le _))
  | addI x =>
    have hi := hs.setI (mod_4096_le (s.i.toNat + (s.reg x).toNat))
    refine .of_finish h ?_
    split
    · exact hi.setReg _ _
    · exact hi
  | drw =>
    obtain ⟨sprite, -, h⟩ := (attempt_next _ _ _).1 h
    exact .of_finish h (hs.of_fields rfl rfl rfl rfl)
  | ldVxK x =>
    refine .of_finish h ?_
    cases s.inputs.keyEvent with
    | some k => exact hs.setReg _ _
    | none => exact hs.setPc (by bv_omega)
  | ldB | storeRegs =>
    obtain ⟨u, hu, h⟩ := (attempt_next _ _ _).1 h
    exact .of_finish h (hs.storeSpan hu)
  | loadRegs =>
    obtain ⟨bytes, -, h⟩ := (attempt_next _ _ _).1 h
    exact .of_finish h (hs.of_fields rfl rfl rfl rfl)

/-- A STEP leaves the invariant at pc2 before it executes, so a word that is no instruction keeps it too. -/
theorem StateInv.instructionStep (hs : StateInv s) (h : instructionStep s = .next t) : StateInv t := by
  obtain ⟨hfetch, h⟩ := instructionStep_cases h
  have hpc2 : s.advance.pc.toNat = s.pc.toNat + 2 := toNat_add_two (by omega)
  have hadv : StateInv s.advance := hs.setPc (by rw [State.advance_pc] at hpc2; omega)
  rcases h with ⟨i, h⟩ | ⟨w, h⟩
  · exact hadv.exec (by omega) (by omega) h
  · exact .of_finish h hadv

end

theorem stateInv_reset : StateInv State.reset := ⟨Memory.reset_wf, by decide, by decide, by decide⟩

/-- Settles O29: the invariant reads neither the parameters nor the schedule. -/
theorem resetMeetsTheInvariant : Obligations.ResetMeetsTheInvariant :=
  fun _ _ => stateInv_reset.of_fields rfl rfl rfl rfl

/-- Settles O30: RESET, a LOAD that fits and TICK keep the bounds, and a STEP executes from pc2, which the fetch has
shown to be 4096 at most. -/
theorem everyStepKeepsTheInvariant : Obligations.EveryStepKeepsTheInvariant := by
  intro s t hs h
  obtain ⟨u, rfl, hu⟩ := step_cases h
  refine StateInv.afterEvent ?_
  rcases hu with rfl | ⟨bytes, base, hload⟩ | rfl | hu
  · exact stateInv_reset.of_fields rfl rfl rfl rfl
  · obtain ⟨hfit, rfl⟩ := loadEvent_eq_next hload
    exact (hs.setMany (.inr hfit)).of_fields rfl rfl rfl rfl
  · exact hs.of_fields rfl rfl rfl rfl
  · exact hs.instructionStep hu

/-- Settles O31, by induction on how the state was reached. -/
theorem reachableStatesAreBounded : Obligations.ReachableStatesAreBounded := by
  intro s h
  induction h with
  | reset params schedule => exact resetMeetsTheInvariant params schedule
  | event s t _ hstep ih => exact everyStepKeepsTheInvariant s t ih hstep

/-! ## The values after RESET (R31) -/

/-- Settles O22: the registers, stack entries and display rows are replicated zeros, and no byte of memory is
listed. -/
theorem resetValues : Obligations.ResetValues := by
  refine ⟨by decide, rfl, rfl, by decide, rfl, rfl, rfl, by decide, fun a ha => ?_, rfl, rfl, rfl⟩
  rw [memRead_ok _ a ha]
  rfl

/-! ## Canonical memories -/

/-- A byte other than the default is listed. -/
theorem Memory.mem_of_get_ne_zero {m : Memory} {a : Nat} (h : m.get a ≠ 0x00) : (a, m.get a) ∈ m := by
  induction m with
  | nil => exact absurd rfl h
  | cons c rest ih =>
    obtain ⟨b, w⟩ := c
    by_cases hb : b = a
    · simp [Memory.get, hb]
    · simp only [Memory.get, hb, if_false] at h ⊢
      exact List.mem_cons_of_mem _ (ih h)

/-- A canonical memory lists exactly the bytes that are not 0, each as a read finds it. -/
theorem Memory.mem_iff_get {m : Memory} (hm : m.wf = true) (a : Nat) (w : Byte) :
    (a, w) ∈ m ↔ m.get a = w ∧ w ≠ 0x00 := by
  obtain ⟨hsorted, hcells⟩ := (Memory.wf_iff m).1 hm
  constructor
  · exact fun hc => ⟨Memory.get_of_mem m hsorted (a, w) hc, (hcells (a, w) hc).2⟩
  · rintro ⟨rfl, hw⟩
    exact Memory.mem_of_get_ne_zero hw

/-- Settles O9: memories that read alike list the same pairs, and a sorted list is given by its members. -/
theorem equalReadsAreEqualMemories : Obligations.EqualReadsAreEqualMemories := by
  intro m k hm hk hget
  have hsame : ∀ c, c ∈ m ↔ c ∈ k := fun ⟨a, w⟩ => by
    rw [Memory.mem_iff_get hm, Memory.mem_iff_get hk, hget]
  have hirrefl : Std.Irrefl fun c d : Host.Cell => c.1 < d.1 := ⟨fun c => Nat.lt_irrefl c.1⟩
  have hasymm : Std.Antisymm fun c d : Host.Cell => c.1 < d.1 :=
    ⟨fun c d h h' => absurd h (Nat.lt_asymm h')⟩
  exact List.Pairwise.eq_of_mem_iff ((Memory.wf_iff m).1 hm).1 ((Memory.wf_iff k).1 hk).1 hsame

/-! ## What each instruction writes (R33) -/

section
variable {s t u : State} {c d : List Piece} {o : EventOutcome} {j : Bool}

/-- Frames of two updates, one after the other, add up. -/
theorem Frame.trans (h : Frame c s t) (h' : Frame d t u) : Frame (c ++ d) s u := by
  obtain ⟨hr, hi, hk, hs, hd, ht, hdi, hm, hpa, hpe, hdr⟩ := h
  obtain ⟨hr', hi', hk', hs', hd', ht', hdi', hm', hpa', hpe', hdr'⟩ := h'
  simp only [Frame, List.mem_append, not_or]
  exact ⟨fun k hc => (hr' k hc.2).trans (hr k hc.1), fun hc => (hi' hc.2).trans (hi hc.1),
    fun hc => (hk' hc.2).trans (hk hc.1), fun hc => (hs' hc.2).trans (hs hc.1),
    fun hc => (hd' hc.2).trans (hd hc.1), fun hc => (ht' hc.2).trans (ht hc.1),
    fun hc => (hdi' hc.2).trans (hdi hc.1), fun hc a => (hm' hc.2 a).trans (hm hc.1 a),
    hpa'.trans hpa, hpe'.trans hpe, hdr'.trans hdr⟩

theorem Frame.of_finish (hf : finish o j s u = .next t) (h : Frame c s u) : Frame c s t := by
  obtain ⟨v, hv, -, -, hframe⟩ := finish_completes o j h
  obtain rfl : v = t := Host.Outcome.next.inj (hv.symm.trans hf)
  exact hframe

theorem frame_disp (dd : Display) : Frame [.display] s { s with disp := dd } := by
  simp [Frame, State.reg, State.memRead]

theorem frame_dt (b : Byte) : Frame [.delay] s { s with dt := b } := by simp [Frame, State.reg, State.memRead]

theorem frame_st (b : Byte) : Frame [.sound] s { s with st := b } := by simp [Frame, State.reg, State.memRead]

theorem frame_push {w : Word} (h : s.push w = .ok t) : Frame [.stack, .sp] s t := by
  obtain ⟨hsp, rfl⟩ := push_eq_ok h
  simp [Frame, State.reg, State.memRead]

/-- A return keeps the entry it pops. -/
theorem frame_pop {a : Word × State} (h : s.pop = .ok a) : Frame [.sp] s a.2 := by
  obtain ⟨k, rfl⟩ := pop_eq_ok h
  simp [Frame, State.reg, State.memRead]

theorem frame_storeSpan {base : Nat} {bytes : List Byte} (h : s.storeSpan base bytes = .ok t) :
    Frame [.memory] s t := by
  obtain ⟨-, rfl⟩ := storeSpan_eq_ok h
  exact frame_mem s _

theorem mem_regsUpTo (x k : RegNo) : Piece.reg k ∈ regsUpTo x ↔ k ≤ x := by simp [regsUpTo]

/-- `x + 1` bytes written from `V0` upward change `V0..Vx` alone. -/
theorem frame_writeRegs (x : RegNo) {bytes : List Byte} (hlen : bytes.length = x.val + 1) :
    Frame (regsUpTo x) s { s with v := writeRegs s.v 0 bytes } := by
  refine ⟨fun k hk => ?_, fun _ => rfl, fun _ => rfl, fun _ => rfl, fun _ => rfl, fun _ => rfl, fun _ => rfl,
    fun _ _ => rfl, rfl, rfl, rfl⟩
  rw [mem_regsUpTo, Fin.le_def] at hk
  simp only [State.reg, Vector.get_eq_getElem]
  rw [writeRegs_getElem, dif_neg (by omega)]

/-- Every instruction that completes has the frame of its row of the matrix. -/
theorem frame_exec {i : Instr} (h : exec i s = .next t) : Frame (writes s.params.fx1eSetsVF i) s t := by
  cases i with
  | halt => exact .of_finish h (frame_self s _)
  | jp | jpV0 => exact .of_finish h (frame_setPc s _)
  | seImm | sneImm | seReg | sneReg => exact .of_finish h (frame_skipIf s _)
  | skp | sknp =>
    obtain ⟨k, -, h⟩ := (attempt_next _ _ _).1 h
    exact .of_finish h (frame_skipIf s _)
  | cls => exact .of_finish h (frame_disp _)
  | ret =>
    obtain ⟨a, ha, h⟩ := (attempt_next _ _ _).1 h
    exact .of_finish h ((frame_pop ha).trans (frame_setPc _ _))
  | call =>
    obtain ⟨u, hu, h⟩ := (attempt_next _ _ _).1 h
    exact .of_finish h ((frame_push hu).trans (frame_setPc _ _))
  | ldImm | addImm | ldReg | orReg | andReg | xorReg | rnd | ldVxDT => exact .of_finish h (frame_setReg s _ _)
  | addReg | subReg | shr | subn | shl => exact .of_finish h (frame_writeWithFlag s _ _ _)
  | ldI | ldF => exact .of_finish h (frame_setI s _)
  | addI x =>
    refine .of_finish h ?_
    simp only [writes]
    split
    · exact (frame_setI s _).trans (frame_setReg _ _ _)
    · exact frame_setI s _
  | drw =>
    obtain ⟨sprite, -, h⟩ := (attempt_next _ _ _).1 h
    exact .of_finish h ((frame_disp _).trans (frame_setReg _ _ _))
  | ldVxK x =>
    refine .of_finish h ?_
    cases s.inputs.keyEvent with
    | some k => exact frame_setReg s _ _
    | none => exact (frame_setPc s _).trans (frame_self _ [.reg x])
  | ldDTVx => exact .of_finish h (frame_dt _)
  | ldSTVx => exact .of_finish h (frame_st _)
  | ldB | storeRegs =>
    obtain ⟨u, hu, h⟩ := (attempt_next _ _ _).1 h
    exact .of_finish h (frame_storeSpan hu)
  | loadRegs x =>
    obtain ⟨bytes, hb, h⟩ := (attempt_next _ _ _).1 h
    exact .of_finish h (frame_writeRegs x (length_of_loadSpan_ok hb))

theorem sameOutside_store {base n : Nat} {bytes : List Byte} (hn : bytes.length = n)
    (hu : s.storeSpan base bytes = .ok u) (hf : finish o j s u = .next t) : SameOutside base n s t := by
  subst hn
  obtain ⟨-, rfl⟩ := storeSpan_eq_ok hu
  exact fun a ha => ((sameCore_of_finish hf).memRead a).trans (sameOutside_setMany s base bytes a ha)

theorem Frame.sameOutside (h : Frame c s t) (hc : Piece.memory ∉ c) (base n : Nat) : SameOutside base n s t := by
  obtain ⟨-, -, -, -, -, -, -, hm, -⟩ := h
  exact fun a _ => hm hc a

/-- No byte changes outside the bytes an instruction stores to (R53): only `Fx33` and `Fx55` write memory at all. -/
theorem sameOutside_exec {i : Instr} (h : exec i s = .next t) :
    SameOutside (storedSpan i s).1 (storedSpan i s).2 s t := by
  cases i with
  | ldB x =>
    obtain ⟨u, hu, h⟩ := (attempt_next _ _ _).1 h
    exact sameOutside_store rfl hu h
  | storeRegs x =>
    obtain ⟨u, hu, h⟩ := (attempt_next _ _ _).1 h
    exact sameOutside_store (firstRegs_length s (x.val + 1) (by omega)) hu h
  | addI x => exact (frame_exec h).sameOutside (by simp only [writes]; split <;> simp) _ _
  | loadRegs x => exact (frame_exec h).sameOutside (by simp [writes, regsUpTo]) _ _
  | _ => exact (frame_exec h).sameOutside (by simp [writes]) _ _

end

/-- Settles O16: the frame of each instruction is that of the operations it is made of. -/
theorem instructionsWriteOnlyWhatTheMatrixLists : Obligations.InstructionsWriteOnlyWhatTheMatrixLists :=
  fun _ _ _ h => ⟨frame_exec h, sameOutside_exec h⟩

/-! ## Calls that nest (R25, R205) -/

theorem exec_call_ok (nnn : Addr12) (s : State) (h : s.sp.val < 16) :
    ∃ t, exec (.call nnn) s = .next t ∧ t.sp.val = s.sp.val + 1 := by
  simp only [exec, execCall, push_ok s _ h, attempt_ok]
  exact ⟨_, rfl, rfl⟩

theorem exec_call_overflow (nnn : Addr12) (s : State) (h : s.sp.val = 16) :
    exec (.call nnn) s = .fault .stackOverflow := by
  simp only [exec, execCall, push_error s _ h, attempt_error]

theorem execAll_calls (targets : List Addr12) (s : State) (h : s.sp.val + targets.length ≤ 16) :
    ∃ t, execAll (targets.map .call) s = .next t ∧ t.sp.val = s.sp.val + targets.length := by
  induction targets generalizing s with
  | nil => exact ⟨s, rfl, rfl⟩
  | cons nnn rest ih =>
    rw [List.length_cons] at h
    obtain ⟨u, hu, hsp⟩ := exec_call_ok nnn s (by omega)
    obtain ⟨t, ht, hsp'⟩ := ih u (by omega)
    refine ⟨t, ?_, by rw [List.length_cons]; omega⟩
    simpa only [List.map_cons, execAll, hu] using ht

/-- Settles O38, by induction on the calls: each finds room, and with 16 entries none is left. -/
theorem sixteenNestedCallsThenOverflow : Obligations.SixteenNestedCallsThenOverflow := by
  intro targets s h
  obtain ⟨t, ht, hsp⟩ := execAll_calls targets s h
  exact ⟨t, ht, hsp, fun hfull nnn => exec_call_overflow nnn t (hsp.trans hfull)⟩

end Sys2Proof.Machine
end

