-- ==== Sys2Proof/Proofs/Memory.lean ====
section
/-! PROOFS. Memory (spec 20_memory): a word placed for the next STEP is what it fetches, a written byte reads back
(R42), a fetch is big-endian and bounded (R41, R44), and a stored byte is fetched at once (R52). -/

namespace Sys2Proof.Machine

/-! ## Fetching a word (R44) -/

/-- The byte at the lower address counts 256 times. -/
theorem toNat_wordOfBytes (hi lo : Byte) : (wordOfBytes hi lo).toNat = 256 * hi.toNat + lo.toNat := by
  have happ : (wordOfBytes hi lo).toNat = hi.toNat <<< 8 ||| lo.toNat := BitVec.toNat_append hi lo
  rw [happ, ← Nat.shiftLeft_add_eq_or_of_lt lo.isLt, Nat.shiftLeft_eq]
  omega

/-- A fetch joins what reads of its two addresses find. -/
theorem fetchWord_of_memRead {s : State} {a : Nat} {hi lo : Byte} (hpc : s.pc.toNat = a)
    (hhi : s.memRead a = .ok hi) (hlo : s.memRead (a + 1) = .ok lo) : s.fetchWord = .ok (wordOfBytes hi lo) := by
  simp only [State.fetchWord, hpc, hhi, hlo]

/-- Settles O8: by the two reads of a fetch, of which that of `PC + 1` is the one out of range at 4095. -/
theorem fetchIsBigEndianAndBounded : Obligations.FetchIsBigEndianAndBounded := by
  refine fun s => ⟨fun h => ?_, fetchWord_top s, fetchWord_beyond s⟩
  exact ⟨_, _, memRead_ok s _ (by omega), memRead_ok s _ (by omega), _, fetchWord_ok s h, toNat_wordOfBytes _ _⟩

/-! ## Placing a word (log entry 11) -/

/-- Sixteen bits hold every word. -/
theorem withFetchWord_toNat (s : State) (w : Word) : s.withFetchWord 16 w.toNat = s.placeWord w := by
  rw [State.withFetchWord, Nat.mod_eq_of_lt w.isLt, BitVec.ofNat_toNat, BitVec.setWidth_eq]

/-- What stands before the first queued STEP is dropped. -/
theorem placeWord_stepsNext (s : State) (w : Word) : (s.placeWord w).stepsNext = true := by
  have hhead := List.head?_dropWhile_not (fun e => !e.isStep) s.pending
  simp only [State.stepsNext, State.placeWord]
  cases hd : s.pending.dropWhile fun e => !e.isStep with
  | nil => rfl
  | cons e rest => simpa [hd] using hhead

/-- A `PC` from which nothing can be fetched has been moved to 0x200. -/
theorem placeWord_fetchable (s : State) (w : Word) : (s.placeWord w).fetchable = true := by
  by_cases hpc : s.pc.toNat ≤ 4094 <;> simp [State.fetchable, State.placeWord, hpc]

/-- The low byte is written second, at another address than the high byte. -/
theorem placeWord_wordAtPc (s : State) (w : Word) : (s.placeWord w).wordAtPc = w := by
  simp [State.wordAtPc, State.placeWord, Memory.get_set_ne]

/-- Settles O6: the placement makes the next event a STEP, its `PC` fetchable and the word there `w`. -/
theorem placedWordIsFetchedNext : Obligations.PlacedWordIsFetchedNext := by
  intro s w
  rw [withFetchWord_toNat]
  have hfetch := placeWord_fetchable s w
  refine ⟨placeWord_stepsNext s w, hfetch, ?_⟩
  rw [fetchWord_ok _ (of_decide_eq_true hfetch), placeWord_wordAtPc]

/-! ## Writing and reading a byte (R41, R42) -/

theorem memWrite_ok (s : State) (a : Nat) (b : Byte) (h : a ≤ 4095) :
    s.memWrite a b = .ok { s with mem := s.mem.set a b } := by
  simp [State.memWrite, Nat.not_lt.2 h]

theorem memWrite_error (s : State) (a : Nat) (b : Byte) (h : 4095 < a) :
    s.memWrite a b = .error (.outOfBounds a) := by
  simp [State.memWrite, h]

/-- Settles O7: a write of one byte is a write of a block of length 1. -/
theorem writtenByteReadsBack : Obligations.WrittenByteReadsBack := by
  refine fun s a b => ⟨fun h => ?_, fun h => ⟨memWrite_error s a b h, memRead_error s a h⟩⟩
  refine ⟨_, memWrite_ok s a b h, ?_, sameOutside_setMany s a [b], rfl⟩
  exact memRead_setMany s a [b] 0 (by simp) (by simp only [List.length_singleton]; omega)

/-! ## Fetching what was stored (R52) -/

/-- After `Fx55` the byte at `I + k` is in memory and holds `Vk`, for `k <= x` (R144). -/
theorem memRead_of_exec_storeRegs {x k : RegNo} {s t : State} (h : exec (.storeRegs x) s = .next t) (hk : k ≤ x) :
    s.base + k.val ≤ 4095 ∧ t.memRead (s.base + k.val) = .ok (s.reg k) := by
  have hkx : k.val ≤ x.val := hk
  have hlen : (s.firstRegs (x.val + 1)).length = x.val + 1 := firstRegs_length s _ (by omega)
  obtain ⟨u, hu, hf⟩ := (attempt_next _ _ _).1 h
  obtain ⟨hfit, rfl⟩ := storeSpan_eq_ok hu
  refine ⟨by omega, ?_⟩
  rw [(sameCore_of_finish hf).memRead, memRead_setMany s _ _ k.val (by omega) (by omega),
    firstRegs_getElem s _ _ _ k.isLt]

/-- Settles O10: the fetch reads two neighbouring bytes of the block, and the block ends at 4095 at the latest. -/
theorem storeIsFetchedAtOnce : Obligations.StoreIsFetchedAtOnce := by
  intro s t x k hk hexec
  obtain ⟨-, hhi⟩ := memRead_of_exec_storeRegs (k := ⟨k, by omega⟩) hexec (Fin.le_def.2 (Nat.le_of_succ_le hk))
  obtain ⟨hend, hlo⟩ := memRead_of_exec_storeRegs (k := ⟨k + 1, by omega⟩) hexec (Fin.le_def.2 hk)
  have hpc : (BitVec.ofNat 16 (s.base + k)).toNat = s.base + k := by
    rw [BitVec.toNat_ofNat, Nat.mod_eq_of_lt (by simp only at hend; omega)]
  exact fetchWord_of_memRead hpc hhi hlo

end Sys2Proof.Machine
end

