-- ==== Sys2Proof/Proofs/Encoding.lean ====
section
/-! PROOFS. The encoding (spec 30_encoding): the encoder and the decoder are inverse to each other (R60 to R65), the
decoder agrees with the opcode map (R65), the unknown words are those of R66, and nothing is refused (R70). -/

namespace Sys2Proof

/-! ## The word of an instruction decodes to it (R65) -/

/-- Each format gives back the fields it was packed from, and the fixed ones select the instruction (R62). -/
theorem decodeWord_encode (i : Instr) : decodeWord (encode i) = .ok i := by
  cases i with
  | halt | cls | ret => decide
  | jp | call | ldI | jpV0 => simp [encode, decodeWord]
  | seImm | sneImm | ldImm | addImm | rnd => simp [encode, decodeWord]
  | drw => simp [encode, decodeWord]
  | seReg | sneReg => simp [encode, decodeWord, decodeLowZero]
  | ldReg | orReg | andReg | xorReg | addReg | subReg | shr | subn | shl =>
    simp [encode, decodeWord, decodeAlu]
  | skp | sknp => simp [encode, decodeWord, decodeKey]
  | _ => simp [encode, decodeWord, decodeMisc]

/-- Settles O2: the two bytes of a word are that word again, and the word of an instruction decodes to it. -/
theorem encodeThenDecodeIsIdentity : Obligations.EncodeThenDecodeIsIdentity := by
  intro i rest
  simp [encodeBytes, decode, decodeWord_encode]

/-- Settles O1: by running the decoder on each word; the last one has the digit 1 where `5xy0` has 0. -/
theorem decodeOfSpecWords : Obligations.DecodeOfSpecWords := by
  unfold Obligations.DecodeOfSpecWords
  decide

/-! ## A word is packed from its fields (R61, R62) -/

section
variable {w : Word} {op n : Nibble} {nn : Byte}

theorem packA_fields (hop : (opField w).toNat = op.toNat) : packA op (nnnField w) = w := by
  rw [← BitVec.eq_of_toNat_eq hop]
  exact BitVec.extractLsb'_append_extractLsb' (w := 4) (len := 12)

theorem opField_append_xField (w : Word) : opField w ++ (BitVec.ofFin (xField w) : Nibble) = highByte w :=
  BitVec.extractLsb'_append_extractLsb'_eq_extractLsb' (start₁ := 8) (len₁ := 4) (len₂ := 4) rfl

theorem packXB_fields (hop : (opField w).toNat = op.toNat) (hnn : (nnField w).toNat = nn.toNat) :
    packXB op (xField w) nn = w := by
  rw [← BitVec.eq_of_toNat_eq hop, ← BitVec.eq_of_toNat_eq hnn, packXB, opField_append_xField]
  exact wordOfBytes_of_word w

theorem packXY_fields (hop : (opField w).toNat = op.toNat) (hn : (nField w).toNat = n.toNat) :
    packXY op (xField w) (yField w) n = w := by
  have hy : highByte w ++ (BitVec.ofFin (yField w) : Nibble) = w.extractLsb' 4 12 :=
    BitVec.extractLsb'_append_extractLsb'_eq_extractLsb' (start₁ := 4) (len₁ := 4) (len₂ := 8) rfl
  rw [← BitVec.eq_of_toNat_eq hop, ← BitVec.eq_of_toNat_eq hn, packXY, opField_append_xField, hy]
  exact BitVec.extractLsb'_append_extractLsb' (w := 12) (len := 4)

end

/-! ## What a decoder answers (R64, R66) -/

/-- `r` is a right answer for `w`, the words of which `unknown` holds being no instructions: the instruction whose word
`w` is, or a report of `w`. -/
def DecodesAs (w : Word) (unknown : Prop) (r : Except Reject Instr) : Prop :=
  match r with
  | .ok i => encode i = w ∧ ¬unknown
  | .error e => e = .unknownOpcode w ∧ unknown

section
variable {w : Word} {p q : Prop} {r : Except Reject Instr}

theorem DecodesAs.congr (h : DecodesAs w p r) (hpq : q ↔ p) : DecodesAs w q r := by rwa [propext hpq]

theorem DecodesAs.encode_eq {i : Instr} (h : DecodesAs w p (.ok i)) : encode i = w := h.1

theorem DecodesAs.unknown_or_ok (h : DecodesAs w p r) : r = .error (.unknownOpcode w) ∨ ∃ i, r = .ok i := by
  cases r with
  | ok i => exact .inr ⟨i, rfl⟩
  | error e => exact .inl (congrArg _ h.1)

theorem DecodesAs.unknown_iff (h : DecodesAs w p r) : r = .error (.unknownOpcode w) ↔ p := by
  cases r with
  | ok i => exact iff_of_false nofun h.2
  | error e => exact iff_of_true (congrArg _ h.1) h.2

theorem decodeE_spec (hop : (opField w).toNat = 0x0) :
    DecodesAs w (nnnField w ≠ 0x000 ∧ nnnField w ≠ 0x0E0 ∧ nnnField w ≠ 0x0EE) (decodeE w) := by
  have hw {a : Addr12} (h : nnnField w = a) : w = packA 0x0 a := h ▸ (packA_fields hop).symm
  unfold decodeE
  split_ifs with h0 hE0 hEE
  · subst h0; exact ⟨rfl, by decide⟩
  · subst hE0; exact ⟨rfl, by decide⟩
  · subst hEE; exact ⟨rfl, by decide⟩
  · exact ⟨rfl, fun h => h0 (hw h), fun h => hE0 (hw h), fun h => hEE (hw h)⟩

theorem decodeLowZero_spec {i : Instr} (h : nField w = 0 → encode i = w) :
    DecodesAs w (nField w ≠ 0) (decodeLowZero w i) := by
  unfold decodeLowZero
  split
  case isTrue hn => exact ⟨h hn, not_not.2 hn⟩
  case isFalse hn => exact ⟨rfl, hn⟩

theorem decodeAlu_spec (hop : (opField w).toNat = 0x8) :
    DecodesAs w ((nField w).toNat ∈ [0x8, 0x9, 0xA, 0xB, 0xC, 0xD, 0xF]) (decodeAlu w) := by
  have hlt := (nField w).isLt
  unfold decodeAlu
  split
  case h_10 =>
    simp only [imp_false] at *
    refine ⟨rfl, ?_⟩
    simp only [List.mem_cons, List.not_mem_nil, or_false]
    omega
  all_goals
    next hn => exact ⟨packXY_fields hop hn, by simp [hn]⟩

theorem decodeKey_spec (hop : (opField w).toNat = 0xE) :
    DecodesAs w ((nnField w).toNat ∉ [0x9E, 0xA1]) (decodeKey w) := by
  unfold decodeKey
  split
  case h_3 => exact ⟨rfl, by simp_all⟩
  all_goals
    next hn => exact ⟨packXB_fields hop hn, by simp [hn]⟩

theorem decodeMisc_spec (hop : (opField w).toNat = 0xF) :
    DecodesAs w ((nnField w).toNat ∉ [0x07, 0x0A, 0x15, 0x18, 0x1E, 0x29, 0x33, 0x55, 0x65]) (decodeMisc w) := by
  unfold decodeMisc
  split
  case h_10 => exact ⟨rfl, by simp_all⟩
  all_goals
    next hn => exact ⟨packXB_fields hop hn, by simp [hn]⟩

/-- The six classes of unknown words (R66). -/
def IsUnknown (w : Word) : Prop :=
  (opField w = 0x0 ∧ nnnField w ≠ 0x000 ∧ nnnField w ≠ 0x0E0 ∧ nnnField w ≠ 0x0EE) ∨
  (opField w = 0x5 ∧ nField w ≠ 0) ∨
  (opField w = 0x8 ∧ (nField w).toNat ∈ [0x8, 0x9, 0xA, 0xB, 0xC, 0xD, 0xF]) ∨
  (opField w = 0x9 ∧ nField w ≠ 0) ∨
  (opField w = 0xE ∧ (nnField w).toNat ∉ [0x9E, 0xA1]) ∨
  (opField w = 0xF ∧ (nnField w).toNat ∉ [0x07, 0x0A, 0x15, 0x18, 0x1E, 0x29, 0x33, 0x55, 0x65])

/-- The cases are the high nibbles in their order: six with a decoder of their own, the others by format. -/
theorem decodeWord_spec (w : Word) : DecodesAs w (IsUnknown w) (decodeWord w) := by
  have hlt := (opField w).isLt
  simp only [IsUnknown, ← BitVec.toNat_inj (x := opField w)]
  unfold decodeWord
  split
  case h_1 hop => exact (decodeE_spec hop).congr (by simp [hop])
  case h_9 hop => exact (decodeAlu_spec hop).congr (by simp [hop])
  case h_15 hop => exact (decodeKey_spec hop).congr (by simp [hop])
  case h_16 hop => exact (decodeMisc_spec hop).congr (by simp [hop])
  case h_6 hop | h_10 hop =>
    refine (decodeLowZero_spec fun hn => ?_).congr (by simp [hop])
    exact packXY_fields hop (congrArg BitVec.toNat hn)
  case h_2 hop | h_3 hop | h_11 hop | h_12 hop => exact ⟨packA_fields hop, by simp [hop]⟩
  case h_4 hop | h_5 hop | h_7 hop | h_8 hop | h_13 hop => exact ⟨packXB_fields hop rfl, by simp [hop]⟩
  case h_14 hop => exact ⟨packXY_fields hop rfl, by simp [hop]⟩
  case h_17 =>
    exfalso
    simp only [imp_false] at *
    omega

end

/-- Settles O3: what the decoder answers for a word is an instruction of that word. -/
theorem decodeThenEncodeIsIdentity : Obligations.DecodeThenEncodeIsIdentity := by
  intro w i hi
  have hspec := decodeWord_spec w
  rw [hi] at hspec
  exact hspec.encode_eq

/-- Settles O5: by what the decoder answers in each class and outside all of them. -/
theorem unknownWordsAreTheListedOnes : Obligations.UnknownWordsAreTheListedOnes :=
  fun w => ⟨(decodeWord_spec w).unknown_or_ok, (decodeWord_spec w).unknown_iff⟩

/-! ## The opcode map (R65) -/

theorem row_mem_opcodeRows (i : Instr) : i.row ∈ opcodeRows := by
  cases i <;> simp only [Instr.row] <;> decide

/-- The mask of a row keeps the fixed fields of its format, which are those of the row's pattern. -/
theorem encode_matches_row (i : Instr) : encode i &&& i.row.mask = i.row.pattern := by
  cases i with
  | halt | cls | ret => decide
  | jp | call | ldI | jpV0 => exact packA_mask _ _
  | seImm | sneImm | ldImm | addImm | rnd => exact packXB_mask_op _ _ _
  | drw => exact packXY_mask_op _ _ _ _
  | seReg | sneReg | ldReg | orReg | andReg | xorReg | addReg | subReg | shr | subn | shl => exact packXY_mask _ _ _ _
  | _ => exact packXB_mask_opnn _ _ _

section
variable {w m p : Word}

/-- A mask that covers a field of the word fixes it to that of the pattern. -/
theorem field_of_match {lo len : Nat} (h : w &&& m = p) (hm : m.extractLsb' lo len = BitVec.allOnes len) :
    (w.extractLsb' lo len).toNat = p.toNat >>> lo % 2 ^ len := by
  rw [← BitVec.extractLsb'_toNat, ← h, BitVec.extractLsb'_and, hm, BitVec.and_allOnes]

theorem opField_of_match (h : w &&& m = p) (hm : opField m = 0xF) : (opField w).toNat = p.toNat >>> 12 % 16 :=
  field_of_match h hm

theorem nField_of_match (h : w &&& m = p) (hm : nField m = 0xF) : (nField w).toNat = p.toNat % 16 :=
  field_of_match h hm

theorem nnField_of_match (h : w &&& m = p) (hm : nnField m = 0xFF) : (nnField w).toNat = p.toNat % 256 :=
  field_of_match h hm

end

theorem opField_mask_of_mem_opcodeRows : ∀ r ∈ opcodeRows, opField r.mask = 0xF := by decide

/-- The fixed fields of a row select its instruction; the mask covers them. -/
theorem exists_decodeWord_of_match (w : Word) (j : Instr) (h : w &&& j.row.mask = j.row.pattern) :
    ∃ i, decodeWord w = .ok i ∧ i.row = j.row := by
  have hop := opField_of_match h (opField_mask_of_mem_opcodeRows _ (row_mem_opcodeRows j))
  cases j with
  | halt | cls | ret =>
    obtain rfl := BitVec.and_allOnes.symm.trans h
    exact ⟨_, rfl, rfl⟩
  | jp | call | ldI | jpV0 | seImm | sneImm | ldImm | addImm | rnd | drw =>
    simp [Instr.row, decodeWord, hop]
  | seReg | sneReg =>
    have hn := nField_of_match h (show nField 0xF00F = 0xF by decide)
    simp [Instr.row, decodeWord, hop, decodeLowZero, ← BitVec.toNat_inj, hn]
  | ldReg | orReg | andReg | xorReg | addReg | subReg | shr | subn | shl =>
    have hn := nField_of_match h (show nField 0xF00F = 0xF by decide)
    simp [Instr.row, decodeWord, hop, decodeAlu, hn]
  | skp | sknp =>
    have hnn := nnField_of_match h (show nnField 0xF0FF = 0xFF by decide)
    simp [Instr.row, decodeWord, hop, decodeKey, hnn]
  | _ =>
    have hnn := nnField_of_match h (show nnField 0xF0FF = 0xFF by decide)
    simp [Instr.row, decodeWord, hop, decodeMisc, hnn]

/-- Settles O4: an instruction's word matches its row, and a word that matches a row has the row's fixed fields. -/
theorem decodeAgreesWithOpcodeMap : Obligations.DecodeAgreesWithOpcodeMap := by
  refine fun w => ⟨fun i hi => ⟨row_mem_opcodeRows i, ?_⟩, fun r hr h => ?_⟩
  · rw [← decodeThenEncodeIsIdentity w i hi]
    exact encode_matches_row i
  · obtain ⟨j, -, rfl⟩ := List.mem_map.1 hr
    exact exists_decodeWord_of_match w j h

end Sys2Proof

namespace Sys2Proof.Machine

/-! ## Nothing is refused (R70, R201) -/

variable {s : State} {r : Refusal}

theorem attempt_ne_refused {α : Type} {e : Except Fault α} {k : α → Result} (h : ∀ a, k a ≠ .refused r) :
    attempt e k ≠ .refused r := by
  cases e with
  | ok a => exact h a
  | error f => nofun

theorem exec_ne_refused (i : Instr) : exec i s ≠ .refused r := by
  cases i with
  | ret | call | drw | skp | sknp | ldB | storeRegs | loadRegs => exact attempt_ne_refused nofun
  | _ => nofun

theorem instructionStep_ne_refused : instructionStep s ≠ .refused r := by
  refine attempt_ne_refused fun w => ?_
  cases decodeWord w with
  | ok i => exact exec_ne_refused i
  | error => nofun

theorem loadEvent_ne_refused (bytes : List Byte) (base : Nat) : s.loadEvent bytes base ≠ .refused r := by
  unfold State.loadEvent
  split <;> nofun

theorem leave_ne_refused {a : Result} (h : a ≠ .refused r) : leaveEvent a ≠ .refused r := by
  cases a with
  | next | fault => nofun
  | refused => exact h

theorem step_ne_refused : step s ≠ .refused r := by
  refine leave_ne_refused ?_
  split
  · nofun
  · exact loadEvent_ne_refused _ _
  · nofun
  · exact instructionStep_ne_refused
  · exact instructionStep_ne_refused

/-- Settles O14: what an instruction or an event answers is a next state or what `attempt` raises. -/
theorem nothingIsRefused : Obligations.NothingIsRefused :=
  fun _ _ => ⟨step_ne_refused, exec_ne_refused⟩

end Sys2Proof.Machine
end

