-- ==== Sys2Proof/Proofs/Flow.lean ====
section
/-! PROOFS. Flow (spec 40_flow): the STEP event runs the word at `PC` (R100, R106), and what jumps, calls, returns and
HALT do (R101 to R105). -/

namespace Sys2Proof.Machine

/-! ## The schedule and the report after an event -/

section
variable {s t : State} {o : EventOutcome} {j : Bool}

@[simp] theorem State.afterEvent_pending (s : State) : s.afterEvent.pending = s.pending.tail := by
  cases hp : s.pending <;> simp [State.afterEvent, hp]

theorem State.afterEvent_draws (s : State) :
    s.afterEvent.draws = if s.pending = [] then s.draws + 1 else s.draws := by
  cases hp : s.pending <;> simp [State.afterEvent, hp]

@[simp] theorem sameCore_afterEvent_right : SameCore s t.afterEvent ↔ SameCore s t := by simp [SameCore]

@[simp] theorem reports_afterEvent_right : Reports o j s t.afterEvent ↔ Reports o j s t := by simp [Reports]

end

/-! ## The STEP event (R100, R106) -/

section
variable {s : State}

theorem step_of_stepsNext (h : s.stepsNext = true) : step s = leaveEvent (instructionStep s) := by
  rcases hp : s.pending with _ | ⟨_ | _ | _ | _, rest⟩
  case nil | cons.step => simp [step, nextEvent, hp]
  case cons.reset | cons.load | cons.tick => simp [State.stepsNext, hp, Event.isStep] at h

theorem instructionStep_of_fetch_error {f : Fault} (h : s.fetchWord = .error f) : instructionStep s = .fault f := by
  rw [instructionStep, h, attempt_error]

theorem fetchWord_of_fetchable (h : s.fetchable = true) : s.fetchWord = .ok s.wordAtPc :=
  fetchWord_ok s (of_decide_eq_true h)

theorem instructionStep_of_decode_ok {i : Instr} (hf : s.fetchable = true) (hd : decodeWord s.wordAtPc = .ok i) :
    instructionStep s = exec i s.advance := by
  simp only [instructionStep, fetchWord_of_fetchable hf, attempt_ok, hd]

theorem instructionStep_of_decode_error {r : Reject} (hf : s.fetchable = true)
    (hd : decodeWord s.wordAtPc = .error r) : instructionStep s = execUnknown s.wordAtPc s.advance := by
  simp only [instructionStep, fetchWord_of_fetchable hf, attempt_ok, hd]

end

/-- Settles O11: a STEP is `exec` after the fetch, and leaving the event changes the schedule alone. -/
theorem stepRunsTheDecodedInstruction : Obligations.StepRunsTheDecodedInstruction := by
  intro s i hs hf hd
  have hstep : step s = leaveEvent (exec i s.advance) := by
    rw [step_of_stepsNext hs, instructionStep_of_decode_ok hf hd]
  refine ⟨fun t (ht : exec i s.advance = .next t) => ?_, fun f (hfault : exec i s.advance = .fault f) => ?_⟩
  · rw [hstep, ht]
    exact ⟨_, leave_next t, SameCore.afterEvent t, t.afterEvent_report, t.afterEvent_pending, t.afterEvent_draws⟩
  · rw [hstep, hfault, leave_fault]

/-- Settles O12: the fetch raises, and the STEP with it. -/
theorem fetchOutOfRangeStopsTheStep : Obligations.FetchOutOfRangeStopsTheStep := by
  intro s hs
  rw [step_of_stepsNext hs]
  refine ⟨fun htop => ?_, fun hbeyond => ?_⟩
  · rw [instructionStep_of_fetch_error (fetchWord_top s htop), leave_fault]
  · rw [instructionStep_of_fetch_error (fetchWord_beyond s hbeyond), leave_fault]

/-- Settles O13: an unknown word completes in the state after the fetch, with the word as its outcome. -/
theorem unknownWordIsReportedAndSkipped : Obligations.UnknownWordIsReportedAndSkipped := by
  intro s hs hf hd
  obtain ⟨t, ht, hcore, -, -, hreports⟩ := finish_spec (.unknownOpcode s.wordAtPc) false s.advance s.advance
  refine ⟨t.afterEvent, ?_, sameCore_afterEvent_right.2 hcore, reports_afterEvent_right.2 hreports⟩
  rw [step_of_stepsNext hs, instructionStep_of_decode_error hf hd, execUnknown, ht, leave_next]

/-! ## What an instruction that ends in `finish` leaves -/

/-- An instruction that finishes in `u` completes, agrees with `u` up to the report, and has the report and the frame
of its constructor. -/
theorem exec_completes {i : Instr} {s u : State} {o : EventOutcome} {j : Bool} (h : exec i s = finish o j s u) :
    ∃ t, exec i s = .next t ∧ SameCore u t ∧ Reports (outcomeOf i s) (isJump i) s t ∧
      Frame (writes s.params.fx1eSetsVF i) s t := by
  obtain ⟨t, ht, hcore, -⟩ := finish_spec o j s u
  have hexec := h.trans ht
  exact ⟨t, hexec, hcore, reports_of_exec hexec, frame_exec hexec⟩

/-! ## Halt and jumps (R102, R104, R105) -/

/-- Settles O39: HALT finishes in the state it began in. -/
theorem haltReportsAndChangesNothing : Obligations.HaltReportsAndChangesNothing := by
  intro s
  obtain ⟨t, ht, ⟨-, hpc, -⟩, hreports, hframe⟩ := exec_completes (i := .halt) (s := s) rfl
  exact ⟨t, ht, hpc, hreports, hframe⟩

theorem toNat_zextAddr (nnn : Addr12) : (zextAddr nnn).toNat = nnn.toNat :=
  BitVec.toNat_setWidth_of_le (by decide)

/-- The target of `Bnnn` fits in 16 bits, so nothing of the sum is lost (R104). -/
theorem toNat_jumpV0_target (nnn : Addr12) (b : Byte) :
    (BitVec.ofNat 16 (nnn.toNat + b.toNat)).toNat = nnn.toNat + b.toNat :=
  (BitVec.toNat_ofNat _ _).trans (Nat.mod_eq_of_lt (by omega))

/-- Settles O34: both jumps finish in the state with the new `PC`. -/
theorem jumpsSetPc : Obligations.JumpsSetPc := by
  intro nnn s
  constructor
  · obtain ⟨t, ht, ⟨-, hpc, -⟩, hreports, hframe⟩ := exec_completes (i := .jp nnn) (s := s) rfl
    exact ⟨t, ht, (congrArg BitVec.toNat hpc).trans (toNat_zextAddr nnn), hreports, hframe⟩
  · obtain ⟨t, ht, ⟨-, hpc, -⟩, hreports, hframe⟩ := exec_completes (i := .jpV0 nnn) (s := s) rfl
    exact ⟨t, ht, (congrArg BitVec.toNat hpc).trans (toNat_jumpV0_target nnn (s.reg 0)), hreports, hframe⟩

/-! ## Calls and returns (R101, R103) -/

theorem exec_call_eq (nnn : Addr12) (s : State) (h : s.sp.val < 16) :
    exec (.call nnn) s = jumped s ({ s with
      stack := s.stack.set s.sp.val s.pc h, sp := ⟨s.sp.val + 1, Nat.succ_lt_succ h⟩ }.setPc (zextAddr nnn)) := by
  simp only [exec, execCall, push_ok s _ h, attempt_ok]

theorem exec_ret_eq (s : State) (k : Fin 16) (h : s.sp.val = k.val + 1) :
    exec .ret s = jumped s ({ s with sp := ⟨k.val, Nat.lt_succ_of_lt k.isLt⟩ }.setPc (s.stack.get k)) := by
  simp only [exec, execRet, pop_ok s k h, attempt_ok]

theorem exec_ret_underflow (s : State) (h : s.sp.val = 0) : exec .ret s = .fault .stackUnderflow := by
  simp only [exec, execRet, pop_error s h, attempt_error]

theorem sp_lt_of_exec_call {nnn : Addr12} {s t : State} (h : exec (.call nnn) s = .next t) : s.sp.val < 16 := by
  by_contra hfull
  simp [exec_call_overflow nnn s (by omega)] at h

theorem stack_get_set (v : Vector Word 16) (n : Nat) (w : Word) (h : n < 16) (k : Fin 16) :
    (v.set n w h).get k = if k.val = n then w else v.get k := by
  simp only [Vector.get_eq_getElem, Vector.getElem_set, eq_comm (a := n)]

/-- Settles O35: with room, the call finishes in the pushed state with the new `PC`. -/
theorem callPushesAndJumps : Obligations.CallPushesAndJumps := by
  refine fun nnn s => ⟨fun hroom => ?_, exec_call_overflow nnn s⟩
  obtain ⟨t, ht, ⟨-, hpc, -, hstack, hsp, -⟩, hreports, hframe⟩ := exec_completes (exec_call_eq nnn s hroom)
  refine ⟨t, ht, (congrArg BitVec.toNat hpc).trans (toNat_zextAddr nnn), congrArg Fin.val hsp, fun k => ?_,
    hreports, hframe⟩
  rw [hstack]
  exact stack_get_set s.stack s.sp.val s.pc hroom k

/-- Settles O36: with an entry, the return finishes in the popped state with that entry as `PC`. -/
theorem returnPopsIntoPc : Obligations.ReturnPopsIntoPc := by
  refine fun s => ⟨fun k hk => ?_, exec_ret_underflow s⟩
  obtain ⟨t, ht, ⟨-, hpc, -, hstack, hsp, -⟩, hreports, hframe⟩ := exec_completes (exec_ret_eq s k hk)
  exact ⟨t, ht, hpc, congrArg Fin.val hsp, hstack, hreports, hframe⟩

/-- Settles O37: the return pops the entry the call pushed, and the call overwrote no entry below it. -/
theorem returnComesBackAfterTheCall : Obligations.ReturnComesBackAfterTheCall := by
  intro nnn s t p hcall
  have hroom := sp_lt_of_exec_call hcall
  obtain ⟨t', ht', -, hsp, hstack, -⟩ := (callPushesAndJumps nnn s).1 hroom
  obtain rfl : t' = t := Host.Outcome.next.inj (ht'.symm.trans hcall)
  obtain ⟨u, hu, hpc, hsp', hstack', -⟩ := (returnPopsIntoPc { t' with pc := p }).1 ⟨s.sp.val, hroom⟩ hsp
  refine ⟨u, hu, ?_, Fin.ext hsp', fun k hk => ?_⟩
  · rw [hpc, hstack, if_pos rfl]
  · rw [hstack', hstack, if_neg hk.ne]

end Sys2Proof.Machine
end

