-- ==== Sys2Proof/Proofs/Skip.lean ====
section
/-! PROOFS. Conditional skips (spec 41_skip): what an instruction that skips on a condition leaves (R110 to R113). -/

namespace Sys2Proof.Machine

/-- A skip on `c` completes, passes the next instruction iff `c`, and changes nothing else. -/
theorem exec_skips {i : Instr} {s : State} {c : Bool} (h : exec i s = done s (s.skipIf c)) :
    ∃ t, exec i s = .next t ∧ t.pc = (if c then s.pc + 2 else s.pc) ∧ Reports .ok false s t ∧ Frame [] s t := by
  obtain ⟨t, ht, ⟨-, hpc, -⟩, hreports, hframe⟩ := finish_completes .ok false (frame_skipIf s c)
  exact ⟨t, h.trans ht, hpc.trans (State.skipIf_pc s c), hreports, hframe⟩

/-- Settles O40: each of the four is a skip, on equality or on its negation. -/
theorem registerCompareSkips : Obligations.RegisterCompareSkips := by
  refine fun x y nn s => ⟨?seImm, ?sneImm, ?seReg, ?sneReg⟩
  case seImm => simpa only [decide_eq_true_eq] using exec_skips (i := .seImm x nn) (s := s) rfl
  case sneImm => simpa only [decide_eq_true_eq, ne_eq, ite_not] using exec_skips (i := .sneImm x nn) (s := s) rfl
  case seReg => simpa only [decide_eq_true_eq] using exec_skips (i := .seReg x y) (s := s) rfl
  case sneReg => simpa only [decide_eq_true_eq, ne_eq, ite_not] using exec_skips (i := .sneReg x y) (s := s) rfl

end Sys2Proof.Machine
end

