-- ==== Sys2Proof/Proofs/Alu.lean ====
section
/-! PROOFS. Register load, arithmetic, logic and random (spec 42_alu): what an instruction leaves that writes one
register (R120 to R125, R131) or a result and its flag (R126 to R130). -/

namespace Sys2Proof.Machine

/-! ## What is left by one register write, and by a result with its flag -/

section
variable {i : Instr} {s : State} {x : RegNo} {b : Byte} {f : Bool}

/-- An instruction that sets `Vx` completes with `Ok` and changes nothing else. -/
theorem exec_setsReg (h : exec i s = done s (s.setReg x b)) :
    ∃ t, exec i s = .next t ∧ t.reg x = b ∧ t.pc = s.pc ∧ t.report.outcome = .ok ∧ Frame [.reg x] s t := by
  obtain ⟨t, ht, hcore, ⟨hok, -⟩, hframe⟩ := finish_completes .ok false (frame_setReg s x b)
  obtain ⟨-, hpc, -⟩ := id hcore
  exact ⟨t, h.trans ht, (hcore.reg x).trans (State.reg_setReg_same s x b), hpc, hok, hframe⟩

/-- An instruction that writes `Vx` and then the flag completes with `Ok` and changes nothing else; the flag is what
remains of the two in `VF` (R21). -/
theorem exec_writesWithFlag (h : exec i s = done s (s.writeWithFlag x b f)) :
    ∃ t, exec i s = .next t ∧ t.reg vf = flagByte f ∧ (x ≠ vf → t.reg x = b) ∧ t.pc = s.pc ∧
      Reports .ok false s t ∧ Frame [.reg x, .reg vf] s t := by
  obtain ⟨t, ht, hcore, hreports, hframe⟩ := finish_completes .ok false (frame_writeWithFlag s x b f)
  obtain ⟨-, hpc, -⟩ := id hcore
  exact ⟨t, h.trans ht, (hcore.reg vf).trans (State.writeWithFlag_vf s x b f),
    fun hx => (hcore.reg x).trans (State.writeWithFlag_result s x b f hx), hpc, hreports, hframe⟩

end

/-! ## Results and flags as numbers -/

section
variable (a b : Byte)

theorem toNat_sum8 : (sum8 a b).toNat = (a.toNat + b.toNat) % 256 := BitVec.toNat_ofNat _ _

theorem toNat_diff8 : (diff8 a b).toNat =
    if b.toNat ≤ a.toNat then a.toNat - b.toNat else 256 + a.toNat - b.toNat := by
  rw [diff8, BitVec.toNat_ofNat]
  split <;> omega

theorem toNat_shr_one : (a >>> 1).toNat = a.toNat / 2 := by
  rw [BitVec.toNat_ushiftRight, Nat.shiftRight_one]

theorem toNat_shl_one : (a <<< 1).toNat = 2 * a.toNat % 256 := by
  rw [BitVec.toNat_shiftLeft, Nat.shiftLeft_eq, Nat.mul_comm]

theorem flagByte_carry : flagByte (carry a b) = if 255 < a.toNat + b.toNat then 0x01 else 0x00 := by
  simp only [flagByte, carry, decide_eq_true_eq]

theorem flagByte_noBorrow : flagByte (noBorrow a b) = if b.toNat ≤ a.toNat then 0x01 else 0x00 := by
  simp only [flagByte, noBorrow, decide_eq_true_eq]

theorem toNat_flagByte (f : Bool) : (flagByte f).toNat = f.toNat := by cases f <;> rfl

theorem toNat_lowBit : (lowBit a).toNat = a.toNat % 2 := by
  rw [lowBit, BitVec.getLsbD, Nat.toNat_testBit, Nat.pow_zero, Nat.div_one]

/-- Bit 7 is the top bit, so nothing is left above it to reduce. -/
theorem toNat_highBit : (highBit a).toNat = a.toNat / 128 := by
  rw [highBit, BitVec.getLsbD, Nat.toNat_testBit]
  omega

end

/-! ## Arithmetic with a flag (R126 to R130) -/

/-- Settles O44: the sum with its carry. -/
theorem addWithCarryOut : Obligations.AddWithCarryOut := by
  intro x y s
  obtain ⟨t, ht, hflag, hresult, hrest⟩ := exec_writesWithFlag (i := .addReg x y) (s := s) rfl
  exact ⟨t, ht, hflag.trans (flagByte_carry _ _), fun hx => hresult hx ▸ toNat_sum8 _ _, hrest⟩

/-- The subtraction `a - b` into `Vx`, whichever operand `Vx` is. -/
theorem exec_subtracts {i : Instr} {s : State} {x : RegNo} {a b : Byte}
    (h : exec i s = done s (s.writeWithFlag x (diff8 a b) (noBorrow a b))) :
    ∃ t, exec i s = .next t ∧ t.reg vf = (if b.toNat ≤ a.toNat then 0x01 else 0x00) ∧
      (x ≠ vf → (t.reg x).toNat = if b.toNat ≤ a.toNat then a.toNat - b.toNat else 256 + a.toNat - b.toNat) ∧
      t.pc = s.pc ∧ t.report.outcome = .ok ∧ Frame [.reg x, .reg vf] s t := by
  obtain ⟨t, ht, hflag, hresult, hpc, ⟨hok, -⟩, hframe⟩ := exec_writesWithFlag h
  exact ⟨t, ht, hflag.trans (flagByte_noBorrow a b), fun hx => hresult hx ▸ toNat_diff8 a b, hpc, hok, hframe⟩

/-- Settles O45: the two are one subtraction with the operands exchanged. -/
theorem subtractBothWays : Obligations.SubtractBothWays :=
  fun x y s => ⟨exec_subtracts (i := .subReg x y) (s := s) rfl, exec_subtracts (i := .subn x y) (s := s) rfl⟩

/-- Settles O46: each shift with the bit it drops. -/
theorem shiftsByOne : Obligations.ShiftsByOne := by
  refine fun x y s => ⟨?shr, ?shl⟩
  case shr =>
    obtain ⟨t, ht, hflag, hresult, hpc, ⟨hok, -⟩, hframe⟩ := exec_writesWithFlag (i := .shr x y) (s := s) rfl
    refine ⟨t, ht, ?_, fun hx => hresult hx ▸ toNat_shr_one _, hpc, hok, hframe⟩
    rw [hflag, toNat_flagByte, toNat_lowBit]
  case shl =>
    obtain ⟨t, ht, hflag, hresult, hpc, ⟨hok, -⟩, hframe⟩ := exec_writesWithFlag (i := .shl x y) (s := s) rfl
    refine ⟨t, ht, ?_, fun hx => hresult hx ▸ toNat_shl_one _, hpc, hok, hframe⟩
    rw [hflag, toNat_flagByte, toNat_highBit]

/-! ## Loads, the immediate sum, logic and random (R120 to R125, R131, R140) -/

/-- Settles O42: three register writes and one write of `I`. -/
theorem loadsAndImmediateAdd : Obligations.LoadsAndImmediateAdd := by
  refine fun x y nn nnn s => ⟨exec_setsReg (i := .ldImm x nn) (s := s) rfl, ?addImm,
    exec_setsReg (i := .ldReg x y) (s := s) rfl, ?ldI⟩
  case addImm =>
    obtain ⟨t, ht, hresult, hrest⟩ := exec_setsReg (i := .addImm x nn) (s := s) rfl
    exact ⟨t, ht, hresult ▸ toNat_sum8 _ _, hrest⟩
  case ldI =>
    obtain ⟨t, ht, ⟨-, hpc, hi, -⟩, ⟨hok, -⟩, hframe⟩ := exec_completes (i := .ldI nnn) (s := s) rfl
    exact ⟨t, ht, (congrArg BitVec.toNat hi).trans (toNat_zextAddr nnn), hpc, hok, hframe⟩

/-- Settles O43: each bit of the register written is the operation on the bits read. -/
theorem bitwiseLogic : Obligations.BitwiseLogic := by
  refine fun x y s => ⟨?or, ?and, ?xor⟩
  case or =>
    obtain ⟨t, ht, hresult, hrest⟩ := exec_setsReg (i := .orReg x y) (s := s) rfl
    exact ⟨t, ht, fun j _ => hresult ▸ BitVec.getLsbD_or, hrest⟩
  case and =>
    obtain ⟨t, ht, hresult, hrest⟩ := exec_setsReg (i := .andReg x y) (s := s) rfl
    exact ⟨t, ht, fun j _ => hresult ▸ BitVec.getLsbD_and, hrest⟩
  case xor =>
    obtain ⟨t, ht, hresult, hrest⟩ := exec_setsReg (i := .xorReg x y) (s := s) rfl
    exact ⟨t, ht, fun j _ => hresult ▸ BitVec.getLsbD_xor, hrest⟩

/-- Settles O47: `Vx` gets the conjunction, so a bit off in the mask is off in `Vx`. -/
theorem randomByteIsMasked : Obligations.RandomByteIsMasked := by
  refine fun x nn s => ⟨fun _ _ => inputs_of_step, ?_⟩
  obtain ⟨t, ht, hresult, hrest⟩ := exec_setsReg (i := .rnd x nn) (s := s) rfl
  refine ⟨t, ht, hresult, fun j _ hj => ?off, fun hnone => ?none, fun hall => ?all, hrest⟩
  case off => rw [hresult, BitVec.getLsbD_and, hj, Bool.and_false]
  case none => rw [hresult, hnone, and_none]
  case all => rw [hresult, hall, and_byte]

end Sys2Proof.Machine
end

