-- ==== Sys2Proof/Proofs/IndexMemory.lean ====
section
/-! PROOFS. The index register and the data stores and loads (spec 43_index_memory R141 to R145): what an instruction
leaves that writes `I`, a block of memory or a block of registers. -/

namespace Sys2Proof.Machine

/-! ## Writing `I` (R141, R142) -/

/-- An instruction that sets `I` completes with `Ok` and changes nothing else. -/
theorem exec_setsI {i : Instr} {s : State} {a : Word} (h : exec i s = done s (s.setI a)) :
    ∃ t, exec i s = .next t ∧ t.i = a ∧ t.pc = s.pc ∧ t.report.outcome = .ok ∧ Frame [.index] s t := by
  obtain ⟨t, ht, ⟨-, hpc, hi, -⟩, ⟨hok, -⟩, hframe⟩ := finish_completes .ok false (frame_setI s a)
  exact ⟨t, h.trans ht, hi, hpc, hok, hframe⟩

/-- The largest glyph address, `0x050 + 5 * 255`, fits in 16 bits. -/
theorem toNat_glyphAddr (b : Byte) : (glyphAddr b).toNat = 0x050 + 5 * b.toNat :=
  (BitVec.toNat_ofNat _ _).trans (Nat.mod_eq_of_lt (by omega))

/-- Settles O49: one write of `I`. -/
theorem glyphAddress : Obligations.GlyphAddress := by
  intro x s
  obtain ⟨t, ht, hi, hrest⟩ := exec_setsI (i := .ldF x) (s := s) rfl
  exact ⟨t, ht, hi ▸ toNat_glyphAddr _, hrest⟩

theorem toNat_ofNat_mod_4096 (n : Nat) : (BitVec.ofNat 16 (n % 4096)).toNat = n % 4096 :=
  (BitVec.toNat_ofNat _ _).trans (Nat.mod_eq_of_lt (by omega))

theorem flagByte_indexOverflow (a : Word) (b : Byte) :
    flagByte (indexOverflow a b) = if 0x0FFF < a.toNat + b.toNat then 0x01 else 0x00 := by
  simp only [flagByte, indexOverflow, decide_eq_true_eq]

theorem exec_addI_of_setsVF {x : RegNo} {s : State} (h : s.params.fx1eSetsVF = true) :
    exec (.addI x) s = done s ((s.setI (BitVec.ofNat 16 ((s.i.toNat + (s.reg x).toNat) % 4096))).setReg vf
      (flagByte (indexOverflow s.i (s.reg x)))) := by
  simp only [exec, execAddI, h, if_true]

theorem exec_addI_of_not_setsVF {x : RegNo} {s : State} (h : s.params.fx1eSetsVF = false) :
    exec (.addI x) s = done s (s.setI (BitVec.ofNat 16 ((s.i.toNat + (s.reg x).toNat) % 4096))) := by
  simp only [exec, execAddI, h, Bool.false_eq_true, if_false]

/-- Settles O48: the parameter decides whether the write of `I` is followed by a write of the flag. -/
theorem addIndexWrapsAt4096 : Obligations.AddIndexWrapsAt4096 := by
  intro x s
  cases hp : s.params.fx1eSetsVF with
  | true =>
    obtain ⟨t, ht, hcore, ⟨hok, -⟩, hframe⟩ :=
      finish_completes .ok false ((frame_setI s _).trans (frame_setReg (s.setI _) vf _))
    obtain ⟨-, hpc, hi, -⟩ := id hcore
    refine ⟨t, (exec_addI_of_setsVF hp).trans ht, hi ▸ toNat_ofNat_mod_4096 _, ?_, hpc, hok, hframe⟩
    rw [if_pos rfl, ← flagByte_indexOverflow]
    exact (hcore.reg vf).trans (State.reg_setReg_same _ _ _)
  | false =>
    obtain ⟨t, ht, hi, hpc, hok, hframe⟩ := exec_setsI (exec_addI_of_not_setsVF (x := x) hp)
    obtain ⟨hreg, -⟩ := id hframe
    refine ⟨t, ht, hi ▸ toNat_ofNat_mod_4096 _, ?_, hpc, hok, hframe.trans (frame_self t [.reg vf])⟩
    rw [if_neg Bool.false_ne_true]
    exact hreg vf (by simp)

/-! ## Storing a block at `I` (R143, R144) -/

section
variable {i : Instr} {s : State} {bytes : List Byte}

/-- An instruction that stores a block that fits completes with `Ok`: the block stands at `I`, and nothing else
changes. -/
theorem exec_stores (h : exec i s = attempt (s.storeSpan s.base bytes) fun t => done s t)
    (hfit : s.base + bytes.length ≤ 4096) :
    ∃ t, exec i s = .next t ∧ (∀ (k : Nat) (hk : k < bytes.length), t.memRead (s.base + k) = .ok bytes[k]) ∧
      SameOutside s.base bytes.length s t ∧ t.pc = s.pc ∧ t.report.outcome = .ok ∧ Frame [.memory] s t := by
  obtain ⟨t, ht, hcore, ⟨hok, -⟩, hframe⟩ := finish_completes .ok false (frame_mem s (s.mem.setMany s.base bytes))
  obtain ⟨-, hpc, -⟩ := id hcore
  refine ⟨t, ?_, fun k hk => ?_, ?_, hpc, hok, hframe⟩
  · rw [h, storeSpan_ok s _ _ (.inr hfit)]
    exact ht
  · exact (hcore.memRead _).trans (memRead_setMany s _ _ k hk hfit)
  · exact sameOutside_store rfl (storeSpan_ok s _ _ (.inr hfit)) ht

theorem exec_stores_fault (h : exec i s = attempt (s.storeSpan s.base bytes) fun t => done s t)
    (hn : bytes.length ≠ 0) (hover : 4096 < s.base + bytes.length) :
    exec i s = .fault (.outOfBounds (max s.base 4096)) := by
  rw [h, storeSpan_error s _ _ hn hover, attempt_error]

end

/-- Settles O50: `Fx33` stores a block of three digits. -/
theorem decimalDigitsAreStored : Obligations.DecimalDigitsAreStored := by
  intro x s
  have hexec : exec (.ldB x) s = attempt (s.storeSpan s.base (decimalDigits (s.reg x))) fun t => done s t := rfl
  have hlen : (decimalDigits (s.reg x)).length = 3 := rfl
  refine ⟨fun hfit => ?_, exec_stores_fault hexec (by omega)⟩
  obtain ⟨t, ht, hread, hrest⟩ := exec_stores hexec hfit
  exact ⟨t, ht, hread 0 (by omega), hread 1 (by omega), hread 2 (by omega), hrest⟩

/-- Settles O51: `Fx55` stores the block of the first `x + 1` registers. -/
theorem registersAreStored : Obligations.RegistersAreStored := by
  intro x s
  have hexec : exec (.storeRegs x) s = attempt (s.storeSpan s.base (s.firstRegs (x.val + 1))) fun t => done s t := rfl
  have hlen : (s.firstRegs (x.val + 1)).length = x.val + 1 := firstRegs_length s _ (by omega)
  refine ⟨fun hfit => ?_, fun hover => exec_stores_fault hexec (by omega) (by omega)⟩
  obtain ⟨t, ht, -, houtside, hrest⟩ := exec_stores hexec (by omega)
  exact ⟨t, ht, fun k hk => (memRead_of_exec_storeRegs ht hk).2, hlen ▸ houtside, hrest⟩

/-! ## Loading a block of registers from `I` (R145) -/

/-- A register among the first `n` gets its byte of the block. -/
theorem writeRegs_getMany (v : Vector Byte 16) (m : Memory) (base n : Nat) (k : RegNo) (hk : k.val < n) :
    (writeRegs v 0 (m.getMany base n)).get k = m.get (base + k.val) := by
  rw [Vector.get_eq_getElem, writeRegs_getElem,
    dif_pos ⟨Nat.zero_le _, by rwa [Memory.getMany_length, Nat.sub_zero]⟩, Memory.getMany_getElem, Nat.sub_zero]

theorem exec_loadRegs_eq {x : RegNo} {s : State} (hfit : s.base + x.val ≤ 4095) :
    exec (.loadRegs x) s = done s { s with v := writeRegs s.v 0 (s.mem.getMany s.base (x.val + 1)) } := by
  simp only [exec, execLoadRegs, loadSpan_ok s s.base (x.val + 1) (.inr (by omega)), attempt_ok]

theorem exec_loadRegs_fault {x : RegNo} {s : State} (hover : 4095 < s.base + x.val) :
    exec (.loadRegs x) s = .fault (.outOfBounds (max s.base 4096)) := by
  simp only [exec, execLoadRegs, loadSpan_error s s.base (x.val + 1) (by omega) (by omega), attempt_error]

/-- Settles O52: the registers `V0..Vx` are written with the bytes read, one each. -/
theorem registersAreLoaded : Obligations.RegistersAreLoaded := by
  refine fun x s => ⟨fun hfit => ?_, exec_loadRegs_fault⟩
  obtain ⟨t, ht, hcore, ⟨hok, -⟩, hframe⟩ := exec_completes (exec_loadRegs_eq hfit)
  obtain ⟨-, hpc, -⟩ := id hcore
  refine ⟨t, ht, fun k hk => ?_, hpc, hok, hframe⟩
  have hkx : k.val ≤ x.val := hk
  rw [hcore.reg k, memRead_ok s _ (by omega)]
  exact congrArg Except.ok (writeRegs_getMany s.v s.mem s.base (x.val + 1) k (by omega)).symm

/-- Settles O53: `Fx55` keeps `I`, so `Fx65` reads back the block that `Fx55` stored. -/
theorem loadAfterStoreRestoresRegisters : Obligations.LoadAfterStoreRestoresRegisters := by
  intro x s t v p hstore
  obtain ⟨-, hi, -⟩ := frame_exec hstore
  have hbase : State.base { t with v := v, pc := p } = s.base := congrArg BitVec.toNat (hi (by simp [writes]))
  obtain ⟨hfit, -⟩ := memRead_of_exec_storeRegs hstore le_rfl
  obtain ⟨u, hu, hread, -⟩ := (registersAreLoaded x { t with v := v, pc := p }).1 (hbase ▸ hfit)
  refine ⟨u, hu, fun k hk => ?_⟩
  have hloaded : t.memRead (s.base + k.val) = .ok (u.reg k) := hbase ▸ hread k hk
  obtain ⟨-, hstored⟩ := memRead_of_exec_storeRegs hstore hk
  exact Except.ok.inj (hloaded.symm.trans hstored)

end Sys2Proof.Machine
end

