-- ==== Sys2Proof/Proofs/Display.lean ====
section
/-! PROOFS. The display (spec 44_display): the clear (R150), the columns a sprite byte lights (R152), and the XOR of a
sprite onto the display with its collision flag (R151). -/

namespace Sys2Proof.Machine

/-! ## Displays, row by row and pixel by pixel (R28) -/

section
variable {d e : Display}

theorem Display.ext_rows (h : ∀ r, d.get r = e.get r) : d = e :=
  Vector.ext fun j hj => h ⟨j, hj⟩

theorem Display.ext_pixels (h : ∀ r c, Display.pixel d r c = Display.pixel e r c) : d = e := by
  refine Display.ext_rows fun r => BitVec.eq_of_getLsbD_eq fun j hj => ?_
  have hcolumn : 63 - (63 - j) = j := by omega
  simpa only [Display.pixel, hcolumn] using h r ⟨63 - j, by omega⟩

theorem Display.pixel_of_row_zero {r : Fin 32} (h : d.get r = 0) (c : Fin 64) : Display.pixel d r c = false := by
  rw [Display.pixel, h]
  exact BitVec.getLsbD_zero

theorem clearedDisplay_get (r : Fin 32) : clearedDisplay.get r = 0 :=
  Vector.getElem_replicate r.isLt

end

/-- Settles O54: CLS finishes in the state whose display rows are all 0. -/
theorem clearScreen : Obligations.ClearScreen := by
  intro s
  obtain ⟨t, ht, ⟨-, hpc, -, -, -, -, -, hdisp, -⟩, hreports, hframe⟩ := exec_completes (i := .cls) (s := s) rfl
  exact ⟨t, ht, fun r => hdisp ▸ Display.pixel_of_row_zero (clearedDisplay_get r), hpc, hreports, hframe⟩

/-! ## The columns of a sprite byte (R152) -/

/-- Bit `i` of the mask is bit `column + i - 56` of the byte, as far as both shifts leave it. -/
theorem getLsbD_rowmask (b : Byte) (column i : Nat) : (rowmask b column).getLsbD i =
    (decide (column + i < 64 ∧ 56 ≤ column + i) && b.getLsbD (column + i - 56)) := by
  rw [rowmask, BitVec.getLsbD_ushiftRight, BitVec.getLsbD_shiftLeft, BitVec.getLsbD_setWidth, Bool.eq_iff_iff]
  simp only [Bool.and_eq_true, Bool.not_eq_true', decide_eq_true_eq, decide_eq_false_iff_not, Nat.not_lt, and_assoc]
  exact ⟨fun ⟨hlt, hge, _, hb⟩ => ⟨hlt, hge, hb⟩, fun ⟨hlt, hge, hb⟩ => ⟨hlt, hge, by omega, hb⟩⟩

/-- Settles O55: column `c` is bit `63 - c` of the row, so the shifts leave it the bit `7 - (c - column)`. -/
theorem spriteByteColumns : Obligations.SpriteByteColumns := by
  intro b column c _
  rw [getLsbD_rowmask, Bool.and_eq_true, decide_eq_true_eq, and_assoc]
  by_cases hc : column ≤ c.val ∧ c.val ≤ column + 7
  · have hbit : column + (63 - c.val) - 56 = 7 - (c.val - column) := by omega
    have hshifts : column + (63 - c.val) < 64 ∧ 56 ≤ column + (63 - c.val) := by omega
    simp only [hbit, hshifts, hc, true_and]
  · refine ⟨fun ⟨hlt, hge, _⟩ => absurd ⟨?_, ?_⟩ hc, fun ⟨hle, hge, _⟩ => absurd ⟨hle, hge⟩ hc⟩ <;> omega

/-! ## Drawing the rows of a sprite -/

section
variable (column : Nat) (bytes : List Byte) (row : Nat) (d : Display) (hit hit' : Bool)

/-- A collision of some row with its mask is a pixel turned off. -/
theorem drawRows_hit_iff_pixel_off : (drawRows column bytes row d false).2 = true ↔
    ∃ r c, Display.pixel d r c = true ∧ Display.pixel (drawRows column bytes row d false).1 r c = false := by
  simp only [drawRows_hit, Bool.false_eq_true, false_or, collides_iff, Display.pixel, drawRows_display]
  refine exists_congr fun r => ?_
  by_cases h : row ≤ r.val ∧ r.val - row < bytes.length
  · simp only [h, exists_true_left, dif_pos, and_self]
  · simp only [h, not_false_eq_true, IsEmpty.exists_iff, dif_neg, false_iff, not_exists, not_and]
    exact fun c hon hoff => Bool.false_ne_true (hoff.symm.trans hon)

/-- A second drawing XORs each row with the same mask again. -/
theorem drawRows_twice :
    (drawRows column bytes row (drawRows column bytes row d hit).1 hit').1 = d := by
  refine Display.ext_rows fun r => ?_
  rw [drawRows_display, drawRows_display]
  split
  · rw [BitVec.xor_assoc, BitVec.xor_self, BitVec.xor_zero]
  · rfl

end

/-! ## `Dxyn` (R151) -/

/-- The display and the collision bit that `Dxyn` computes from `s`. -/
def drawnSprite (x y : RegNo) (n : Nibble) (s : State) : Display × Bool :=
  drawRows (startColumn (s.reg x)) (s.mem.getMany s.base n.toNat) (startRow (s.reg y)) s.disp false

section
variable {x y : RegNo} {n : Nibble} {s t : State}

theorem drawnSprite_display (r : Fin 32) : (drawnSprite x y n s).1.get r =
    if (s.reg y).toNat % 32 ≤ r.val ∧ r.val < (s.reg y).toNat % 32 + n.toNat then
      s.disp.get r ^^^ rowmask (s.mem.get (s.base + (r.val - (s.reg y).toNat % 32))) ((s.reg x).toNat % 64)
    else s.disp.get r := by
  simp only [drawnSprite, drawRows_display, Memory.getMany_length, Memory.getMany_getElem, startRow, startColumn,
    dite_eq_ite]
  exact if_congr (by omega) rfl rfl

/-- The collision bit tells whether some pixel was on before the drawing and is off after it. -/
theorem drawnSprite_hit : (drawnSprite x y n s).2 = true ↔
    ∃ r c, Display.pixel s.disp r c = true ∧ Display.pixel (drawnSprite x y n s).1 r c = false :=
  drawRows_hit_iff_pixel_off _ _ _ _

theorem exec_drw_eq (hfit : n = 0 ∨ s.base + n.toNat ≤ 4096) : exec (.drw x y n) s =
    done s ({ s with disp := (drawnSprite x y n s).1 }.setReg vf (flagByte (drawnSprite x y n s).2)) := by
  have hspan : n.toNat = 0 ∨ s.base + n.toNat ≤ 4096 := hfit.imp_left (congrArg BitVec.toNat)
  simp only [exec, execDrw, loadSpan_ok s s.base n.toNat hspan, attempt_ok, drawnSprite]

/-- A sprite that was drawn had all its addresses in range (R204). -/
theorem fits_of_exec_drw (h : exec (.drw x y n) s = .next t) : n = 0 ∨ s.base + n.toNat ≤ 4096 := by
  by_contra hfit
  have hn : n.toNat ≠ 0 := fun hn => hfit (.inl (BitVec.eq_of_toNat_eq hn))
  obtain ⟨sprite, hload, -⟩ := (attempt_next _ _ _).1 h
  simp [loadSpan_error s s.base n.toNat hn (by omega)] at hload

/-- A sprite whose addresses are in range is drawn, and nothing but the display and `VF` changes. -/
theorem exec_drw_completes (hfit : n = 0 ∨ s.base + n.toNat ≤ 4096) :
    ∃ t, exec (.drw x y n) s = .next t ∧ t.disp = (drawnSprite x y n s).1 ∧
      t.reg vf = flagByte (drawnSprite x y n s).2 ∧ t.mem = s.mem ∧ t.pc = s.pc ∧ Reports .ok false s t ∧
      Frame [.display, .reg vf] s t := by
  obtain ⟨t, ht, hcore, hreports, hframe⟩ := exec_completes (exec_drw_eq (x := x) (y := y) hfit)
  obtain ⟨-, hpc, -, -, -, -, -, hdisp, hmem, -⟩ := id hcore
  exact ⟨t, ht, hdisp, (hcore.reg vf).trans (State.reg_setReg_same _ _ _), hmem, hpc, hreports, hframe⟩

/-- Where `t` differs from `s` in the display and `VF` alone, the same sprite is drawn at the same place. -/
theorem drawnSprite_of_frame (hx : x ≠ vf) (hy : y ≠ vf) (hmem : t.mem = s.mem)
    (hframe : Frame [.display, .reg vf] s t) : drawnSprite x y n t =
      drawRows (startColumn (s.reg x)) (s.mem.getMany s.base n.toNat) (startRow (s.reg y)) t.disp false := by
  obtain ⟨hreg, hi, -⟩ := hframe
  rw [drawnSprite, hreg x (by simp [hx]), hreg y (by simp [hy]), hmem, State.base, hi (by simp), State.base]

end

/-- Settles O56: the closed form of the drawing, with the collision bit read off the pixels. -/
theorem spriteIsXoredOntoTheDisplay : Obligations.SpriteIsXoredOntoTheDisplay := by
  intro x y n s hfit
  obtain ⟨t, ht, hdisp, hflag, -, hrest⟩ := exec_drw_completes (x := x) (y := y) hfit
  refine ⟨t, ht, ?_⟩
  rw [hdisp, hflag, ← drawnSprite_hit]
  exact ⟨drawnSprite_display, fun hhit => if_pos hhit, fun hmiss => if_neg hmiss, hrest⟩

/-- Settles O57: the second drawing undoes the first, so on a blank display it turns off what the first turned on. -/
theorem drawingTwiceRestoresTheDisplay : Obligations.DrawingTwiceRestoresTheDisplay := by
  intro x y n s t hx hy h
  have hfit := fits_of_exec_drw h
  obtain ⟨t', ht', hdisp, -, hmem, -, -, hframe⟩ := exec_drw_completes (x := x) (y := y) hfit
  obtain rfl : t' = t := Host.Outcome.next.inj (ht'.symm.trans h)
  obtain ⟨-, hi, -⟩ := id hframe
  obtain ⟨u, hu, hdisp', hflag, -⟩ := exec_drw_completes (x := x) (y := y) (n := n) (s := t')
    (by rwa [State.base, hi (by simp)])
  have hrestored : (drawnSprite x y n t').1 = s.disp := by
    rw [drawnSprite_of_frame hx hy hmem hframe, hdisp]
    exact drawRows_twice _ _ _ _ _ _
  refine ⟨u, hu, hdisp'.trans hrestored, fun hdrawn hblank => hflag.trans (if_pos (drawnSprite_hit.2 ?_))⟩
  rw [hrestored]
  have hoff : ∀ r c, Display.pixel s.disp r c = false := fun r => Display.pixel_of_row_zero (hblank r)
  by_contra hnone
  refine hdrawn (Display.ext_pixels fun r c => ?_)
  rw [hoff r c, Bool.eq_false_iff]
  exact fun hon => hnone ⟨r, c, hon, hoff r c⟩

end Sys2Proof.Machine
end

