-- ==== Sys2Proof/Proofs/TimerKey.lean ====
section
/-! PROOFS. The keypad and timer instructions (spec 45_timer_key): the skips on a key (R160, R161), the wait for a key
(R163) and the moves between a register and the timers (R162, R164, R165). -/

namespace Sys2Proof.Machine

section
variable {x : RegNo} {s : State}

/-! ## Skips on a key (R160, R161) -/

theorem keyNumber_ok (h : (s.reg x).toNat ≤ 15) : s.keyNumber x = .ok (s.reg x).toNat :=
  if_neg (Nat.not_lt.2 h)

theorem keyNumber_error (h : 15 < (s.reg x).toNat) : s.keyNumber x = .error (.outOfBounds (s.reg x).toNat) :=
  if_pos h

theorem exec_skp_eq (h : (s.reg x).toNat ≤ 15) :
    exec (.skp x) s = done s (s.skipIf (s.inputs.keyDown (s.reg x).toNat)) := by
  simp only [exec, execSkp, keyNumber_ok h, attempt_ok]

theorem exec_sknp_eq (h : (s.reg x).toNat ≤ 15) :
    exec (.sknp x) s = done s (s.skipIf (!s.inputs.keyDown (s.reg x).toNat)) := by
  simp only [exec, execSknp, keyNumber_ok h, attempt_ok]

theorem exec_skp_fault (h : 15 < (s.reg x).toNat) : exec (.skp x) s = .fault (.outOfBounds (s.reg x).toNat) := by
  simp only [exec, execSkp, keyNumber_error h, attempt_error]

theorem exec_sknp_fault (h : 15 < (s.reg x).toNat) : exec (.sknp x) s = .fault (.outOfBounds (s.reg x).toNat) := by
  simp only [exec, execSknp, keyNumber_error h, attempt_error]

/-! ## The wait for a key (R163) -/

theorem toNat_zextKey (k : Nibble) : (zextKey k).toNat = k.toNat :=
  BitVec.toNat_setWidth_of_le (by decide)

theorem exec_ldVxK_of_event {k : Nibble} (h : s.inputs.keyEvent = some k) :
    exec (.ldVxK x) s = done s (s.setReg x (zextKey k)) := by
  simp only [exec, execLdVxK, h, done]

theorem exec_ldVxK_of_no_event (h : s.inputs.keyEvent = none) :
    exec (.ldVxK x) s = finish .waitingForKey false s (s.setPc (s.pc - 2)) := by
  simp only [exec, execLdVxK, h]

end

/-- Settles O41: a key number up to 15 makes both a skip, on the key being down or on its negation; a larger one
raises before the keys are read. -/
theorem keySkips : Obligations.KeySkips := by
  refine fun x s => ⟨fun _ _ => inputs_of_step, fun hkey => ⟨exec_skips (exec_skp_eq hkey), ?sknp⟩,
    fun hover => ⟨exec_skp_fault hover, exec_sknp_fault hover⟩⟩
  case sknp =>
    simpa only [Inputs.keyDown, Bool.not_eq_true', ← Bool.not_eq_true, ite_not] using exec_skips (exec_sknp_eq hkey)

/-- Settles O58: with a key event one register is written, without one `PC` alone is moved back. -/
theorem waitForKey : Obligations.WaitForKey := by
  refine fun x s => ⟨fun _ _ => inputs_of_step, fun k hevent => ?event, fun hnone => ?wait⟩
  case event =>
    obtain ⟨t, ht, hcore, hreports, hframe⟩ := finish_completes .ok false (frame_setReg s x (zextKey k))
    obtain ⟨-, hpc, -⟩ := id hcore
    refine ⟨t, (exec_ldVxK_of_event hevent).trans ht, ?_, hpc, hreports, hframe⟩
    rw [hcore.reg, State.reg_setReg_same, toNat_zextKey]
  case wait =>
    obtain ⟨t, ht, ⟨-, hpc, -⟩, hreports, hframe⟩ :=
      finish_completes .waitingForKey false (frame_setPc s (s.pc - 2))
    exact ⟨t, (exec_ldVxK_of_no_event hnone).trans ht, hpc, hreports, hframe⟩

/-! ## The timers (R162, R164, R165) -/

/-- Settles O59: one write of a register and one of each timer. -/
theorem timerInstructions : Obligations.TimerInstructions := by
  refine fun x s => ⟨exec_setsReg (i := .ldVxDT x) (s := s) rfl, ?delay, ?sound⟩
  case delay =>
    obtain ⟨t, ht, ⟨-, hpc, -, -, -, hdt, -⟩, ⟨hok, -⟩, hframe⟩ := exec_completes (i := .ldDTVx x) (s := s) rfl
    exact ⟨t, ht, hdt, hpc, hok, hframe⟩
  case sound =>
    obtain ⟨t, ht, ⟨-, hpc, -, -, -, -, hst, -⟩, ⟨hok, -⟩, hframe⟩ := exec_completes (i := .ldSTVx x) (s := s) rfl
    exact ⟨t, ht, hst, hpc, hok, hframe⟩

end Sys2Proof.Machine
end

/-! PROOFS. Exceptions and TICK (spec 60_exceptions): the error of each instruction (R204 to R206), what a fatal error
leaves and when it recurs (R207, R208), and the timers (R214). -/

namespace Sys2Proof.Machine

/-! ## The error an operation raises (R204 to R206) -/

/-- The error a shared operation raises, if it raises one. -/
def errorOf {α : Type} : Except Fault α → Option Fault
  | .ok _ => none
  | .error f => some f

/-- The fatal error an event or an instruction ends with, if it ends with one. -/
def faultIn : Result → Option Fault
  | .next _ => none
  | .fault f => some f
  | .refused _ => none

theorem faultIn_eq_some {r : Result} {f : Fault} : faultIn r = some f ↔ r = .fault f := by
  cases r <;> simp [faultIn]

/-- An instruction that finishes once its operation has succeeded has the error of that operation. -/
theorem faultIn_attempt {α : Type} {e : Except Fault α} {k : α → Result} (hk : ∀ a, faultIn (k a) = none) :
    faultIn (attempt e k) = errorOf e := by
  cases e with
  | ok a => exact hk a
  | error f => rfl

section
variable (s t : State)

theorem errorOf_push (w : Word) : errorOf (s.push w) = if s.sp.val = 16 then some .stackOverflow else none := by
  by_cases hfull : s.sp.val = 16
  · rw [push_error s w hfull, if_pos hfull, errorOf]
  · rw [push_ok s w (by omega), if_neg hfull, errorOf]

theorem errorOf_pop : errorOf s.pop = if s.sp.val = 0 then some .stackUnderflow else none := by
  by_cases hempty : s.sp.val = 0
  · rw [pop_error s hempty, if_pos hempty, errorOf]
  · rw [State.pop, dif_neg hempty, if_neg hempty, errorOf]

theorem errorOf_checkSpan (base n : Nat) : errorOf (checkSpan base n) = spanFault base n := by
  by_cases hover : 4096 < base + n ∧ n ≠ 0
  · rw [checkSpan_error base n hover.2 hover.1, spanFault, if_pos hover, errorOf]
  · rw [checkSpan_ok base n (by omega), spanFault, if_neg hover, errorOf]

theorem errorOf_loadSpan (base n : Nat) : errorOf (s.loadSpan base n) = spanFault base n := by
  rw [← errorOf_checkSpan, State.loadSpan]
  cases checkSpan base n <;> rfl

theorem errorOf_storeSpan {base n : Nat} {bytes : List Byte} (hn : bytes.length = n) :
    errorOf (s.storeSpan base bytes) = spanFault base n := by
  rw [← hn, ← errorOf_checkSpan, State.storeSpan]
  cases checkSpan base bytes.length <;> rfl

theorem errorOf_keyNumber (x : RegNo) : errorOf (s.keyNumber x) =
    if 15 < (s.reg x).toNat then some (.outOfBounds (s.reg x).toNat) else none := by
  by_cases hover : 15 < (s.reg x).toNat
  · rw [keyNumber_error hover, if_pos hover, errorOf]
  · rw [keyNumber_ok (Nat.not_lt.1 hover), if_neg hover, errorOf]

/-! ## The error of an instruction -/

/-- The table of R204 to R206 is what `exec` raises: the error of the one operation of the instruction that can raise,
and none for an instruction that finishes at once. -/
theorem faultIn_exec (i : Instr) : faultIn (exec i s) = faultOf i s := by
  cases i with
  | ret => exact (faultIn_attempt fun _ => rfl).trans (errorOf_pop s)
  | call => exact (faultIn_attempt fun _ => rfl).trans (errorOf_push s s.pc)
  | drw | loadRegs => exact (faultIn_attempt fun _ => rfl).trans (errorOf_loadSpan s _ _)
  | skp x | sknp x => exact (faultIn_attempt fun _ => rfl).trans (errorOf_keyNumber s x)
  | ldB => exact (faultIn_attempt fun _ => rfl).trans (errorOf_storeSpan s rfl)
  | storeRegs x =>
    exact (faultIn_attempt fun _ => rfl).trans (errorOf_storeSpan s (firstRegs_length s _ (by omega)))
  | _ => rfl

end

/-- Settles O15: `exec` raises the error of the table, and without one it completes, since nothing is refused. -/
theorem eachInstructionCompletesOrRaisesItsError : Obligations.EachInstructionCompletesOrRaisesItsError := by
  intro i s
  rw [← faultIn_exec]
  refine ⟨fun hnone => ?completes, fun f => faultIn_eq_some.1⟩
  case completes =>
    cases h : exec i s with
    | next t => exact ⟨t, rfl⟩
    | fault f => simp [h, faultIn] at hnone
    | refused r => exact absurd h (exec_ne_refused i)

/-! ## What a fatal error leaves (R207) -/

theorem settle_of_fault {s : State} {f : Fault} (h : step s = .fault f) : settle s = s.afterFault f := by
  rw [settle, ← step, h]

/-- Settles O20: a fault takes the event and sets the report. -/
theorem fatalErrorsChangeNothing : Obligations.FatalErrorsChangeNothing := by
  intro s f h
  rw [settle_of_fault h]
  exact ⟨SameCore.afterEvent s, rfl, s.afterEvent_pending⟩

/-! ## A fault recurs (R208) -/

section
variable {s t : State}

theorem fetchWord_of_memRead_eq (hpc : t.pc = s.pc) (hmem : ∀ a, t.memRead a = s.memRead a) :
    t.fetchWord = s.fetchWord := by
  simp only [State.fetchWord, hpc, hmem]

/-- The conditions of R204 to R206 speak of the registers, `I` and `SP` alone. -/
theorem faultOf_congr (hv : t.v = s.v) (hi : t.i = s.i) (hsp : t.sp = s.sp) (i : Instr) :
    faultOf i t = faultOf i s := by
  simp only [faultOf, State.base, State.reg_of_v hv, hi, hsp]

/-- The fetch and the instruction fetched have the same error in both states; an unknown word has none. -/
theorem faultIn_instructionStep_congr (hv : t.v = s.v) (hpc : t.pc = s.pc) (hi : t.i = s.i) (hsp : t.sp = s.sp)
    (hmem : ∀ a, t.memRead a = s.memRead a) : faultIn (instructionStep t) = faultIn (instructionStep s) := by
  rw [instructionStep, instructionStep, fetchWord_of_memRead_eq hpc hmem]
  cases s.fetchWord with
  | error f => rfl
  | ok w =>
    simp only [attempt_ok]
    cases decodeWord w with
    | error r => rfl
    | ok i =>
      have hfault : faultOf i t.advance = faultOf i s.advance := faultOf_congr hv hi hsp i
      simpa only [faultIn_exec] using hfault

end

/-- Settles O21: a STEP's error is a function of the registers, `PC`, `I`, `SP` and what memory reads. -/
theorem faultRecursOnTheNextStep : Obligations.FaultRecursOnTheNextStep := by
  intro s t f hs ht h hv hpc hi hsp hmem
  rw [step_of_stepsNext hs, leave_eq_fault, ← faultIn_eq_some] at h
  rw [step_of_stepsNext ht, leave_eq_fault, ← faultIn_eq_some, faultIn_instructionStep_congr hv hpc hi hsp hmem, h]

/-! ## TICK (R214) -/

theorem toNat_countDown (b : Byte) : (countDown b).toNat = b.toNat - 1 := by
  unfold countDown
  split
  · next h => rw [h]; rfl
  · next h => bv_omega

theorem step_of_tick {s : State} {rest : List Event} (h : s.pending = .tick :: rest) :
    step s = .next { s.tick with pending := rest } := by
  simp [step, nextEvent, h, State.afterEvent]

/-- Settles O25: each timer is counted down by itself. -/
theorem tickDecrementsBothTimers : Obligations.TickDecrementsBothTimers :=
  fun s _ h => ⟨_, step_of_tick h, toNat_countDown s.dt, toNat_countDown s.st, rfl⟩

/-- Settles O26, by induction on the number of TICKs. -/
theorem timersCountDownAndStayAtZero : Obligations.TimersCountDownAndStayAtZero := by
  intro n
  induction n with
  | zero => exact fun s rest h => ⟨s, rfl, rfl, rfl, rfl, rfl, rfl, rfl, rfl, rfl, rfl, h⟩
  | succ n ih =>
    intro s rest h
    have htick : s.pending = .tick :: (List.replicate n .tick ++ rest) := h
    obtain ⟨t, hrun, hdt, hst, hsame⟩ := ih { s.tick with pending := List.replicate n .tick ++ rest } rest rfl
    refine ⟨t, ?run, ?delay, ?sound, hsame⟩
    case run => rwa [runFor_next (nextInRun_of_cons htick) (step_of_tick htick) nofun]
    case delay => rw [hdt, State.tick_dt, toNat_countDown]; omega
    case sound => rw [hst, State.tick_st, toNat_countDown]; omega

end Sys2Proof.Machine

/-! PROOFS. Reset and runs (spec 70_reset_and_hazards): RESET and LOAD (R240 to R243), the boot sequence and the launch
state (R244 to R246), and how a run goes on, ends and is refused (R250). -/

namespace Sys2Proof.Machine

/-! ## RESET (R240, R241) -/

theorem step_of_reset {s : State} {rest : List Event} (h : s.pending = .reset :: rest) :
    step s = .next { State.reset with params := s.params, pending := rest, draws := s.draws } := by
  simp [step, nextEvent, h, State.afterEvent, State.resetEvent]

/-- Settles O23: the state after RESET takes the parameters, the schedule and the counter from the one before, and
nothing else. -/
theorem resetEventFromAnyState : Obligations.ResetEventFromAnyState :=
  fun _ _ h => ⟨_, step_of_reset h, SameCore.refl _, rfl, rfl⟩

/-! ## LOAD (R243) -/

section
variable {s : State} {bytes : List Byte} {base : Nat} {rest : List Event}

theorem step_of_load (h : s.pending = .load bytes base :: rest) (hfit : base + bytes.length ≤ 4096) :
    step s = .next { s with mem := s.mem.setMany base bytes, pending := rest, report := Report.okay } := by
  simp [step, nextEvent, h, State.loadEvent, Nat.not_lt.2 hfit, State.afterEvent]

theorem step_of_load_too_large (h : s.pending = .load bytes base :: rest) (hover : 4096 < base + bytes.length) :
    step s = .fault .programTooLarge := by
  simp [step, nextEvent, h, State.loadEvent, hover, raise]

end

/-- Settles O24: a LOAD that fits is one write of several bytes. -/
theorem loadWritesItsBytesOrRaises : Obligations.LoadWritesItsBytesOrRaises := by
  refine fun s bytes base rest h => ⟨fun hfit => ?fits, step_of_load_too_large h⟩
  case fits =>
    exact ⟨_, step_of_load h hfit, fun k hk => memRead_setMany s base bytes k hk hfit,
      sameOutside_setMany s base bytes, rfl⟩

/-! ## The boot sequence and the launch state (R244, R250) -/

/-- Settles O27: the three events one after the other; font and program fit, so neither LOAD raises. -/
theorem bootReachesTheLaunchState : Obligations.BootReachesTheLaunchState := by
  intro s font program schedule hfont hprogram hpending
  have hfontFits : 0x050 + font.length ≤ 4096 := by rw [(fontWf_iff font).1 hfont]; decide
  have hprogramFits : 0x200 + program.length ≤ 4096 := (programWf_iff program).1 hprogram
  have hreset : s.pending = .reset :: .load font 0x050 :: .load program 0x200 :: schedule := hpending
  rw [deliver_next (step_of_reset hreset), deliver_next (step_of_load rfl hfontFits),
    deliver_next (step_of_load rfl hprogramFits)]
  rfl

/-- The reset state with the font in memory: what the boot sequence has reached before the program is loaded. -/
def fontState (font : List Byte) : State :=
  { State.reset with mem := State.reset.mem.setMany 0x050 font }

section
variable (params : Params) (font program : List Byte) (schedule : List Event)

/-- The launch state reads as the font state with the program written over it. -/
theorem launchState_memRead (a : Nat) : (launchState params font program schedule).memRead a =
    State.memRead { fontState font with mem := (fontState font).mem.setMany 0x200 program } a := rfl

theorem launchState_memRead_program {k : Nat} (hk : k < program.length) (hfit : 0x200 + program.length ≤ 4096) :
    (launchState params font program schedule).memRead (0x200 + k) = .ok program[k] :=
  (launchState_memRead ..).trans (memRead_setMany (fontState font) 0x200 program k hk hfit)

theorem launchState_memRead_outside_program {a : Nat} (ha : a < 0x200 ∨ 0x200 + program.length ≤ a) :
    (launchState params font program schedule).memRead a = (fontState font).memRead a :=
  (launchState_memRead ..).trans (sameOutside_setMany (fontState font) 0x200 program a ha)

end

/-- Settles O28: the font ends below the program, so neither write covers the other, and outside both the reset state's
zeros are left. -/
theorem launchMemoryHoldsFontAndProgram : Obligations.LaunchMemoryHoldsFontAndProgram := by
  intro params font program schedule hfont hprogram
  have hlen : font.length = 80 := (fontWf_iff font).1 hfont
  refine ⟨fun k hk => ?font, fun k hk => ?program, fun a ha houtFont houtProgram => ?zeros⟩
  case font =>
    rw [launchState_memRead_outside_program _ _ _ _ (by omega)]
    exact memRead_setMany State.reset 0x050 font k hk (by omega)
  case program => exact launchState_memRead_program _ _ _ _ hk ((programWf_iff program).1 hprogram)
  case zeros =>
    obtain ⟨-, -, -, -, -, -, -, -, hzero, -⟩ := resetValues
    rw [launchState_memRead_outside_program _ _ _ _ houtProgram]
    exact (sameOutside_setMany State.reset 0x050 font a (by omega)).trans (hzero a ha)

/-! ## The end of a run (R250) -/

/-- Where a run stands after `m` further events: it goes on only if it has not ended. -/
def RunStatus.continueFor (m : Nat) : RunStatus → RunStatus
  | .running t => runFor m t
  | .halted t => .halted t
  | .faulted f t => .faulted f t
  | .outsideRun t => .outsideRun t
  | .stopped r => .stopped r

/-- A run of `n + m` events is one of `n` events continued for `m`. -/
theorem runFor_add (n m : Nat) (s : State) : runFor (n + m) s = (runFor n s).continueFor m := by
  induction n generalizing s with
  | zero => rw [Nat.zero_add, runFor, RunStatus.continueFor]
  | succ n ih =>
    rw [Nat.succ_add]
    by_cases hnext : s.nextInRun = true
    · cases hs : step s with
      | next t =>
        by_cases hhalt : t.report.outcome = .halt
        · rw [runFor_halt hnext hs hhalt, runFor_halt hnext hs hhalt, RunStatus.continueFor]
        · rw [runFor_next hnext hs hhalt, runFor_next hnext hs hhalt, ih t]
      | fault f => rw [runFor_fault hnext hs, runFor_fault hnext hs, RunStatus.continueFor]
      | refused r => exact absurd hs step_ne_refused
    · rw [runFor_outside (Bool.eq_false_iff.2 hnext), runFor_outside (Bool.eq_false_iff.2 hnext),
        RunStatus.continueFor]

/-- Settles O32: a run that has ended is continued by no event. -/
theorem endOfRunIsFinal : Obligations.EndOfRunIsFinal := by
  intro n m s
  rw [runFor_add]
  exact ⟨fun t h => by rw [h, RunStatus.continueFor], fun f t h => by rw [h, RunStatus.continueFor]⟩

/-! ## Safe runs (R250) -/

theorem outcome_of_not_isUnsafe {r : Report} (h : r.isUnsafe = false) :
    r.outcome = .ok ∨ r.outcome = .waitingForKey ∨ r.outcome = .halt := by
  unfold Report.isUnsafe at h
  cases ho : r.outcome <;> simp [ho] at h ⊢

/-- Settles O33, by induction on the number of events observed: the first event of a safe run has a safe report, and
it halts or a safe run is left. -/
theorem safeRunsDoNotFault : Obligations.SafeRunsDoNotFault := by
  intro n s h m hm
  induction m generalizing n s with
  | zero => exact ⟨s, .inl rfl, absurd rfl⟩
  | succ m ih =>
    obtain ⟨n, rfl⟩ := Nat.exists_eq_add_of_lt hm
    obtain ⟨hnext, t, hs, hsafe, hrest⟩ := safeFor_succ.1 h
    have hreport := outcome_of_not_isUnsafe hsafe
    by_cases hhalt : t.report.outcome = .halt
    · exact ⟨t, .inr (runFor_halt hnext hs hhalt), fun _ => hreport⟩
    · rw [runFor_next hnext hs hhalt]
      obtain rfl | hpos := Nat.eq_zero_or_pos m
      · exact ⟨t, .inl rfl, fun _ => hreport⟩
      · obtain ⟨u, hu, hok⟩ := ih _ t (hrest.resolve_left hhalt) (Nat.le_add_right m n)
        exact ⟨u, hu, fun _ => hok hpos.ne'⟩

/-! ## What a run may hold (R250, U13) -/

section
variable {s t : State} {n : Nat}

theorem safeFor_outside (h : s.nextInRun = false) : safeFor (n + 1) s = false := by
  rw [safeFor, h, Bool.false_and]

theorem nextInRun_of_forall (h : ∀ e ∈ s.pending, e.inRun = true) : s.nextInRun = true := by
  cases hp : s.pending with
  | nil => exact nextInRun_of_nil hp
  | cons e rest => exact (nextInRun_of_cons hp).trans (h e (hp ▸ List.mem_cons_self))

theorem stepsNext_or_tick_of_nextInRun (h : s.nextInRun = true) :
    s.stepsNext = true ∨ ∃ rest, s.pending = .tick :: rest := by
  rcases hp : s.pending with _ | ⟨_ | _ | _ | _, rest⟩
  case nil | cons.step => exact .inl (by simp [State.stepsNext, hp, Event.isStep])
  case cons.tick => exact .inr ⟨rest, rfl⟩
  case cons.reset | cons.load => exact absurd ((nextInRun_of_cons hp).symm.trans h) Bool.false_ne_true

/-- No instruction touches the schedule. -/
theorem pending_of_instructionStep (h : instructionStep s = .next t) : t.pending = s.pending := by
  obtain ⟨-, ⟨i, h⟩ | ⟨w, h⟩⟩ := instructionStep_cases h
  · obtain ⟨-, -, -, -, -, -, -, -, -, hpending, -⟩ := frame_exec h
    exact hpending
  · obtain ⟨-, -, -, -, -, -, -, -, -, hpending, -⟩ := Frame.of_finish h (frame_self s.advance [])
    exact hpending

/-- An event that completes leaves the schedule without it, and changes nothing else of it. -/
theorem pending_of_step (h : step s = .next t) : t.pending = s.pending.tail := by
  obtain ⟨u, rfl, hu⟩ := step_cases h
  suffices hsame : u.pending = s.pending by rw [State.afterEvent_pending, hsame]
  rcases hu with rfl | ⟨bytes, base, hload⟩ | rfl | hu
  · rfl
  · obtain ⟨-, rfl⟩ := loadEvent_eq_next hload
    rfl
  · rfl
  · exact pending_of_instructionStep hu

/-! ## The errors a run can end with (R209) -/

theorem spanFault_ne_programTooLarge (base n : Nat) : spanFault base n ≠ some .programTooLarge := by
  unfold spanFault
  split <;> nofun

theorem faultOf_ne_programTooLarge (i : Instr) : faultOf i s ≠ some .programTooLarge := by
  cases i with
  | drw | ldB | storeRegs | loadRegs => exact spanFault_ne_programTooLarge _ _
  | ret | call | skp | sknp =>
    simp only [faultOf]
    split <;> nofun
  | _ => exact (Option.some_ne_none _).symm

theorem fetchWord_ne_programTooLarge : s.fetchWord ≠ .error .programTooLarge := by
  obtain hin | htop | hbeyond : s.pc.toNat ≤ 4094 ∨ s.pc.toNat = 4095 ∨ 4095 < s.pc.toNat := by omega
  · rw [fetchWord_ok s hin]; nofun
  · rw [fetchWord_top s htop]; nofun
  · rw [fetchWord_beyond s hbeyond]; nofun

/-- A STEP raises what the fetch or the instruction raises, and neither has the error of a LOAD. -/
theorem instructionStep_ne_programTooLarge : instructionStep s ≠ .fault .programTooLarge := by
  rw [instructionStep]
  cases hf : s.fetchWord with
  | error f =>
    rw [attempt_error]
    rintro ⟨⟩
    exact fetchWord_ne_programTooLarge hf
  | ok w =>
    rw [attempt_ok]
    cases decodeWord w with
    | ok i => exact fun h => faultOf_ne_programTooLarge i ((faultIn_exec s.advance i).symm.trans (faultIn_eq_some.2 h))
    | error r => nofun

/-- TICK raises nothing, so an event of a run has at most the error of a STEP. -/
theorem step_ne_programTooLarge (h : s.nextInRun = true) : step s ≠ .fault .programTooLarge := by
  obtain hstep | ⟨rest, htick⟩ := stepsNext_or_tick_of_nextInRun h
  · rw [step_of_stepsNext hstep, ne_eq, leave_eq_fault]
    exact instructionStep_ne_programTooLarge
  · rw [step_of_tick htick]
    nofun

/-- A schedule of STEPs and TICKs, by induction on the number of events: each leaves such a schedule. -/
theorem runFor_of_forall_inRun (n : Nat) (s : State) (h : ∀ e ∈ s.pending, e.inRun = true) :
    (∃ t, runFor n s = .running t) ∨ (∃ t, runFor n s = .halted t) ∨
      ∃ f t, runFor n s = .faulted f t ∧ f ≠ .programTooLarge := by
  induction n generalizing s with
  | zero => exact .inl ⟨s, rfl⟩
  | succ n ih =>
    have hnext := nextInRun_of_forall h
    cases hs : step s with
    | next t =>
      by_cases hhalt : t.report.outcome = .halt
      · exact .inr (.inl ⟨t, runFor_halt hnext hs hhalt⟩)
      · rw [runFor_next hnext hs hhalt]
        exact ih t fun e he => h e (List.mem_of_mem_tail (pending_of_step hs ▸ he))
    | fault f =>
      exact .inr (.inr ⟨f, s, runFor_fault hnext hs, fun hf => step_ne_programTooLarge hnext (hf ▸ hs)⟩)
    | refused r => exact absurd hs step_ne_refused

end

/-- Settles O60: a RESET or a LOAD is not taken, and without one only a `Halt` or an instruction's error ends a run. -/
theorem runsHoldNoResetAndNoLoad : Obligations.RunsHoldNoResetAndNoLoad := by
  intro n s
  have hrefused (hout : s.nextInRun = false) : runFor (n + 1) s = .outsideRun s ∧ safeFor (n + 1) s = false :=
    ⟨runFor_outside hout, safeFor_outside hout⟩
  exact ⟨fun _ h => hrefused (nextInRun_of_cons h), fun _ _ _ h => hrefused (nextInRun_of_cons h),
    runFor_of_forall_inRun n s⟩

end Sys2Proof.Machine
